-- ==== Sys2Proof/Word.lean ====
section
/-! DEFINITION. The words of the block: an 8-bit unit, an operation code, a bit position. -/

namespace Sys2Proof

/-- One 8-bit unit: an element of a byte sequence, the operand of a bit-group primitive (00_scope.md R15). -/
abbrev Byte := BitVec 8

/-- The operation code `op[3:0]` (30_encoding.md R62). -/
abbrev OpCode := BitVec 4

/-- A bit position: 3 bits, so that every value is one of the 8 positions of a unit (40_bit_primitives.md R70). -/
abbrev Pos := BitVec 3

end Sys2Proof
end

