-- ==== Sys2Proof/Config.lean ====
section
/-! DEFINITION. What one instance of the block fixes (its elaboration-time parameters), and the free values:
constants without a body that stand for what a result port carries when the spec leaves it unspecified. -/

namespace Sys2Proof

/-- The elaboration-time parameters of one instance of the block (00_scope.md R10, R12, R13; R14: there are no
others). The model holds them in a field of State that no step writes, so that a statement about every state is a
statement about every instance (DESIGN CHOICE, safe but for `State.reset`: entry 1). -/
structure Params where
  /-- `W`: the width in bits of every integer the block encodes or decodes (R10). -/
  w : Nat
  /-- `A`: the width in bits of a cursor and of a sequence length (R12). -/
  a : Nat
  /-- `BITOPS_EXPOSED`: whether BTST, BSET, BCLR can be requested (R13). -/
  bitopsExposed : Bool
  deriving DecidableEq, Repr

/-! Free values (10_state.md R23, 60_exceptions.md R106, U3: "unspecified"), each applied to the counter
`State.freeCount`, so that every response carries a fresh one. Nothing can be proved of them but their type: a
statement holds whatever they are (entry 9; safe). -/

/-- What `val_out` carries when the operation does not define it, before the cut to its `W` wires. -/
opaque Config.freeValOut : Nat → Nat
/-- What `cur_out` carries when the operation does not define it, before the cut to its `A` wires. -/
opaque Config.freeCurOut : Nat → Nat
/-- What `unit_out` carries when the operation does not define it. -/
opaque Config.freeUnitOut : Nat → Byte
/-- What `bit_out` carries when the operation does not define it. -/
opaque Config.freeBitOut : Nat → BitVec 1
/-- What `nbytes` carries when the operation does not define it, before the cut to its wires. -/
opaque Config.freeNbytes : Nat → Nat

end Sys2Proof
end

