-- ==== Sys2Proof/Syntax.lean ====
section
/-! DEFINITION. The operations of the block, a request, and what the caller can do between operations. -/

namespace Sys2Proof

/-- The operation set (00_scope.md R3), one constructor per row of spec/opcode_table.json. A code carries no operand
(30_encoding.md R62): the operands stand on the request ports. -/
inductive Instr where
  /-- `BTST unit, pos -> bit` (40_bit_primitives.md R71). -/
  | btst
  /-- `BSET unit, pos -> unit'` (R72). -/
  | bset
  /-- `BCLR unit, pos -> unit'` (R73). -/
  | bclr
  /-- `ENCU value`, source name `encode_unsigned` (41_unsigned_varint.md R77). -/
  | encu
  /-- `ENCS value`, source name `encode_signed` (42_signed_varint.md R88). -/
  | encs
  /-- `DECU`, source name `decode_unsigned` (41_unsigned_varint.md R80). -/
  | decu
  /-- `DECS`, source name `decode_signed` (42_signed_varint.md R92). -/
  | decs
  /-- `ENC.s value`, source name `encode`: the written form of ENCU (`s` = 0) or ENCS (`s` = 1); `s` is the
  caller-declared signedness (43_generic_dispatch.md R98). -/
  | encGen (s : Bool)
  /-- `DEC.s`, source name `decode`: the written form of DECU (`s` = 0) or DECS (`s` = 1) (R99). -/
  | decGen (s : Bool)
  deriving DecidableEq, Repr

/-- The operation that an instruction's code words stand for: a pseudo-operation adds no code of its own
(30_encoding.md R69), every other instruction is itself. -/
def Instr.expand : Instr → Instr
  | .btst => .btst
  | .bset => .bset
  | .bclr => .bclr
  | .encu => .encu
  | .encs => .encs
  | .decu => .decu
  | .decs => .decs
  | .encGen false => .encu
  | .encGen true => .encs
  | .decGen false => .decu
  | .decGen true => .decs

/-- The bit-group primitives: class bit `op[3]` = 0 (30_encoding.md R63). -/
def Instr.isBitop : Instr → Bool
  | .btst | .bset | .bclr => true
  | .encu | .encs | .encGen _ | .decu | .decs | .decGen _ => false

/-- The encodes, which extend the sequence: class bit 1, direction bit 0 (R63). -/
def Instr.isEncode : Instr → Bool
  | .encu | .encs | .encGen _ => true
  | .btst | .bset | .bclr | .decu | .decs | .decGen _ => false

/-- The decodes, which read the sequence: class bit 1, direction bit 1 (R63). -/
def Instr.isDecode : Instr → Bool
  | .decu | .decs | .decGen _ => true
  | .btst | .bset | .bclr | .encu | .encs | .encGen _ => false

/-- A request as the caller writes it: the operation code and the operands of 10_state.md R22. The integer, the
cursor and the length have a width that is a parameter of the instance, so they are natural numbers, and
`Request.wf` says that they fit their ports (DESIGN CHOICE, safe: entry 2). -/
structure Request where
  /-- `op[3:0]`. -/
  op : OpCode
  /-- `val_in`: the integer to encode, as a pattern on `W` wires. -/
  valIn : Nat
  /-- `unit_in`. -/
  unitIn : Byte
  /-- `pos`. -/
  pos : Pos
  /-- `cur_in`: a value the caller gives, or `none` where it drives its own cursor `c` as R68 says (entry 6). -/
  curIn : Option Nat
  /-- `len`: a value the caller gives (R120: a smaller one than the true length cuts the sequence; a larger one is
  refused, entry 5), or `none` where it drives the current `len(S)` as R68 says (entry 6). -/
  len : Option Nat
  deriving DecidableEq, Repr

/-- What the outside world can do between operations (entries 6, 7, 8). -/
inductive Input where
  /-- The caller issues a request (R22). -/
  | request (r : Request)
  /-- The block is reset between operations (70_reset_and_hazards.md R117). -/
  | blockReset
  /-- The caller presents a byte sequence and a cursor: another pair (D24), or its own after a change that it made by
  its own means (R111). -/
  | present (bytes : List Byte) (cursor : Nat)
  deriving DecidableEq, Repr

end Sys2Proof
end

