-- ==== Sys2Proof/WellFormed.lean ====
section
/-! DEFINITION. What is well formed: an instance's parameters, an operation under an instance, a request, an input. -/

namespace Sys2Proof

/-- `W` is a multiple of 8 and at least 8 (00_scope.md R10). `A` is open (R12). -/
abbrev Params.wf (p : Params) : Prop := p.w % 8 = 0 ∧ 8 ≤ p.w

/-- The operations that an instance has a code for: the bit-group primitives only when they are exposed
(00_scope.md R13, 30_encoding.md R66). -/
def Instr.wf (p : Params) : Instr → Bool
  | .btst => p.bitopsExposed
  | .bset => p.bitopsExposed
  | .bclr => p.bitopsExposed
  | .encu => true
  | .encs => true
  | .decu => true
  | .decs => true
  | .encGen _ => true
  | .decGen _ => true

/-- Every operand fits its port (10_state.md R22, 00_scope.md R12, R16). -/
abbrev Request.wf (p : Params) (r : Request) : Prop :=
  r.valIn < 2 ^ p.w ∧ r.curIn.getD 0 < 2 ^ p.a ∧ r.len.getD 0 < 2 ^ p.a

/-- An input that keeps the caller's obligation `len(S) <= 2^A - 1` and whose cursor fits (70_reset_and_hazards.md
R123, 00_scope.md R12). -/
def Input.wf (p : Params) : Input → Bool
  | .request r => decide (r.wf p)
  | .blockReset => true
  | .present bytes cursor => decide (bytes.length < 2 ^ p.a ∧ cursor < 2 ^ p.a)

end Sys2Proof
end

