-- ==== Sys2Proof/Decode.lean ====
section
/-! DEFINITION. The operation-select code (30_encoding.md sections 5 and 6): the decoder, total on the 4-bit port and
rejecting by name, and after it the encoder. The wire format of the integers is in Machine/Unsigned.lean and
Machine/Signed.lean. -/

namespace Sys2Proof

/-- Why a code names no operation (30_encoding.md R63, R66). -/
inductive CodeRejected where
  /-- `op` = 0011: the reserved function of the bit-group class. -/
  | reservedFunction
  /-- `op[2]` = 1: the reserved bit. -/
  | reservedBit
  deriving DecidableEq, Repr

/-- The decoder of 30_encoding.md R65, row by row from the table of R64: everything that is no row is reserved. -/
def decodeOp (op : OpCode) : Except CodeRejected Instr :=
  match op with
  | 0b0000#4 => .ok .btst
  | 0b0001#4 => .ok .bset
  | 0b0010#4 => .ok .bclr
  | 0b1000#4 => .ok .encu
  | 0b1001#4 => .ok .encs
  | 0b1010#4 => .ok .decu
  | 0b1011#4 => .ok .decs
  | 0b0011#4 => .error .reservedFunction
  | _ => .error .reservedBit

/-- The four wires of a table word: bits 3..0; a table word has no other bit (entry 11). -/
def opOfWord (w : Nat) : OpCode := BitVec.ofNat 4 w

/-- The instruction that the decoder reads from a word numbered as spec/opcode_table.json numbers it. -/
def decodeTableWord (_nbits w : Nat) : Option Instr :=
  match decodeOp (opOfWord w) with
  | .ok i => some i
  | .error _ => none

/-- The encoder, from the fields of 30_encoding.md R63: `cls`, `rsv` = 0, then `fn`, or `dir` and `s`. A
pseudo-operation's code is `100s` or `101s` (R69). -/
def encode : Instr → OpCode
  | .btst => opOfFields false 0b00#2
  | .bset => opOfFields false 0b01#2
  | .bclr => opOfFields false 0b10#2
  | .encu => opOfFields true (codecFields false false)
  | .encs => opOfFields true (codecFields false true)
  | .decu => opOfFields true (codecFields true false)
  | .decs => opOfFields true (codecFields true true)
  | .encGen s => opOfFields true (codecFields false s)
  | .decGen s => opOfFields true (codecFields true s)
where
  /-- `op[3]` = `cls`, `op[2]` = `rsv` = 0, `op[1:0]` the rest. -/
  opOfFields (cls : Bool) (low : BitVec 2) : OpCode :=
    BitVec.ofBool cls ++ (0#1 ++ low : BitVec 3)
  /-- `op[1]` = `dir`, `op[0]` = `s`. -/
  codecFields (dir s : Bool) : BitVec 2 := BitVec.ofBool dir ++ BitVec.ofBool s

end Sys2Proof
end

