-- ==== Sys2Proof/Machine/State.lean ====
section
/-! DEFINITION. The state as plain data, the reasons a step can stop, and the machine right after reset. -/

namespace Sys2Proof.Machine

/-- The byte sequence `S` (10_state.md R24, 20_memory.md R35): (index, byte) pairs. Its canonical form is
`Memory.wf`; an index that is not listed holds no byte. -/
abbrev Memory := List Host.Cell

/-- The one form of a sequence: the indexes listed are 0, 1, ..., len(S)-1, in rising order (R35). -/
abbrev Memory.wf (m : Memory) : Prop := m.map Prod.fst = List.range m.length

/-- The request ports, as sampled once when an operation starts (10_state.md R22). -/
structure Ports where
  /-- `op`, 4 bits. -/
  op : OpCode
  /-- `val_in`, `W` bits. -/
  valIn : Nat
  /-- `unit_in`, 8 bits. -/
  unitIn : Byte
  /-- `pos`, 3 bits. -/
  pos : Pos
  /-- `cur_in`, `A` bits. -/
  curIn : Nat
  /-- `len`, `A` bits. -/
  len : Nat
  deriving DecidableEq, Repr

/-- The response ports (10_state.md R23). A port always carries a value; one that the operation does not define
carries a free value (U3, entry 9). -/
structure Response where
  /-- `err`, 2 bits, 60_exceptions.md R107. -/
  err : BitVec 2
  /-- `val_out`, `W` bits. -/
  valOut : Nat
  /-- `cur_out`, `A` bits. -/
  curOut : Nat
  /-- `unit_out`, 8 bits. -/
  unitOut : Byte
  /-- `bit_out`, 1 bit. -/
  bitOut : BitVec 1
  /-- `nbytes`. -/
  nbytes : Nat
  deriving DecidableEq, Repr

/-- The state. The block itself holds none between operations (10_state.md R20): `seq` and `cursor` are the caller's
(R24, R25), `req` and `resp` are the ports (R22, R23), `params` never changes (R10, R12, R13; entry 1), `pending` is
what the outside world will do, oldest first (entry 6), and `freeCount` indexes the free values (entry 9). -/
structure State where
  params : Params
  seq : Memory
  cursor : Nat
  pending : List Input
  req : Ports
  /-- The response of the last operation since reset; `none` where none has ended ("no response exists until the first
  operation ends", R33). -/
  resp : Option Response
  freeCount : Nat
  deriving DecidableEq, Repr

/-- What stops the machine with a fault: nothing. The spec names no condition that stops the block; its errors
(60_exceptions.md R107) are responses, after which it goes on, and what it gives no meaning is refused. -/
inductive Fault where
  deriving DecidableEq, Repr

/-- What the model gives no meaning. -/
inductive Refusal where
  /-- Raised by an arm of `exec` whose instruction has no meaning yet; no arm is left so. Safe. -/
  | notModelled (mnemonic : String)
  /-- Raised by ENCU, ENCS and ENC.s when the encoding would take len(S) beyond `2^A - 1`: the caller's obligation of
  70_reset_and_hazards.md R123 is broken, and "the spec gives the outcome no meaning" (U7 "refuse"). Safe: entry 4. -/
  | sequenceFull
  /-- Raised by DECU, DECS and DEC.s when `len` is larger than the true length of the sequence: the caller's obligation
  of 70_reset_and_hazards.md R120 is broken, and `len` "is not a free input" (U10 "refuse"). Safe: entry 5. -/
  | lenBeyondSequence
  deriving DecidableEq, Repr

/-- No request has been sampled: every request port 0 (DESIGN CHOICE, unsafe: entry 14). -/
def Ports.reset : Ports := { op := 0, valIn := 0, unitIn := 0, pos := 0, curIn := 0, len := 0 }

/-- The machine right after reset: no response exists (10_state.md R33) and the block is idle (R117). The instance is
one with `W` = 32, `A` = 32 (DESIGN CHOICE, unsafe: entry 1) and `BITOPS_EXPOSED` true (R13's default); the caller
holds an empty sequence, a cursor 0 and no request to issue (DESIGN CHOICE, unsafe: entry 14). -/
def State.reset : State where
  params := { w := 32, a := 32, bitopsExposed := true }
  seq := []
  cursor := 0
  pending := []
  req := Ports.reset
  resp := none
  freeCount := 0

end Sys2Proof.Machine
end

