-- ==== Sys2Proof/Machine/Arith.lean ====
section
/-! DEFINITION. The arithmetic of 00_scope.md: the operators of R16 and R17 and the derived constants of R11. Natural
numbers, as the spec's pseudocode has them. -/

namespace Sys2Proof.Machine

/-- `trunc_N(a) = a mod 2^N` (R17). -/
def truncW (n a : Nat) : Nat := a % 2 ^ n

/-- `neg_W(u) = (2^W - u) mod 2^W`: two's-complement negation of a `W`-bit pattern (R17). -/
def negW (w u : Nat) : Nat := (2 ^ w - u) % 2 ^ w

/-- `bits_W(v) = v mod 2^W`: the pattern of a signed value (R16; two's complement is PRESUMED by the spec, G1:
entry 13). -/
def bitsW (w : Nat) (v : Int) : Nat := (v % (2 ^ w : Int)).toNat

/-- `signed_W(u) = u - 2^W if u[W-1] = 1 else u` (R16). -/
def signedW (w u : Nat) : Int := if u.testBit (w - 1) then (u : Int) - 2 ^ w else u

/-- `bitlen(u)`: 0 if `u = 0`, else the position of the highest set bit plus one (R17). -/
def bitLen (u : Nat) : Nat := if u = 0 then 0 else Nat.log2 u + 1

/-- `ceil(a / b)`. -/
def ceilDiv (a b : Nat) : Nat := (a + b - 1) / b

/-- `G_u = ceil(W / 7)` (R11). -/
def groupsU (w : Nat) : Nat := ceilDiv w 7

/-- `G_s = ceil((W - 6) / 7)` (R11). -/
def groupsS (w : Nat) : Nat := ceilDiv (w - 6) 7

/-- `L_u = G_u`, the longest unsigned encoding (R11). -/
def maxLenU (w : Nat) : Nat := groupsU w

/-- `L_s = 1 + G_s`, the longest signed encoding (R11). -/
def maxLenS (w : Nat) : Nat := 1 + groupsS w

/-- The width of `nbytes`, `ceil(log2(max(L_u, L_s) + 1))` (10_state.md R23): the bits of the number
`max(L_u, L_s)`. -/
def nbytesWidth (w : Nat) : Nat := bitLen (max (maxLenU w) (maxLenS w))

end Sys2Proof.Machine
end

