-- ==== Sys2Proof/Machine/Flags.lean ====
section
/-! DEFINITION. The bits that carry a meaning: the bit-group functions of 40_bit_primitives.md, the flags and fields of
the wire bytes (30_encoding.md R51 to R53), and the error codes. The block has no status flags (10_state.md R29). -/

namespace Sys2Proof.Machine

/-- `bit_test(u, p) = (u >> p) & 1`, one bit (40_bit_primitives.md R71). -/
def bitTest (u : Byte) (p : Pos) : BitVec 1 := ((u >>> p.toNat) &&& 1#8).setWidth 1

/-- `bit_set(u, p) = u | (1 << p)` (R72). -/
def bitSet (u : Byte) (p : Pos) : Byte := u ||| (1#8 <<< p.toNat)

/-- `bit_clear(u, p) = u & (255 - (1 << p))` (R73). -/
def bitClear (u : Byte) (p : Pos) : Byte := u &&& (255#8 - (1#8 <<< p.toNat))

/-- The continuation flag of a group byte: bit 7, 1 = another byte follows (30_encoding.md R51, R53). -/
def groupFlag (b : Byte) : Bool := bitTest b 7#3 == 1#1

/-- The payload of a group byte: `b[6:0]` (R51, R53). -/
def payload (b : Byte) : Nat := (bitClear b 7#3).toNat

/-- A group byte: the low 7 bits of `v`, and the continuation flag (R51; 41_unsigned_varint.md R76). -/
def groupByte (more : Bool) (v : Nat) : Byte :=
  let p : Byte := BitVec.ofNat 8 (v &&& 0x7F)
  if more then bitSet p 7#3 else p

/-- The sign flag of a signed first byte: bit 7, 1 = negative (R52). -/
def signFlag (f : Byte) : Bool := bitTest f 7#3 == 1#1

/-- The continuation flag of a signed first byte: bit 6 (R52). -/
def firstFlag (f : Byte) : Bool := bitTest f 6#3 == 1#1

/-- The magnitude bits of a signed first byte: `f[5:0]` (R52). -/
def firstBits (f : Byte) : Nat := (bitClear (bitClear f 7#3) 6#3).toNat

/-- A signed first byte: sign, continuation flag, the 6 low magnitude bits (R52; 42_signed_varint.md R87). -/
def firstByte (sign more : Bool) (low : Nat) : Byte :=
  BitVec.ofNat 8 ((sign.toNat <<< 7) ||| (more.toNat <<< 6) ||| (low &&& 0x3F))

/-- The errors an operation can report (60_exceptions.md R102, R105). -/
inductive ErrKind where
  | truncatedInput
  | illegalOp
  deriving DecidableEq, Repr

/-- The code on the `err` port; 0 is OK and 3 is never produced (60_exceptions.md R107). -/
def ErrKind.code : ErrKind → BitVec 2
  | .truncatedInput => 1#2
  | .illegalOp => 2#2

end Sys2Proof.Machine
end

