-- ==== Sys2Proof/Machine/Operands.lean ====
section
/-! DEFINITION. How operands reach the block (the request ports, sampled once: 10_state.md R22) and how results leave
it (the response ports: R23). -/

namespace Sys2Proof.Machine

/-- The request ports that a request drives. An operand that the caller does not give is driven as 30_encoding.md R68
says: its cursor on `cur_in`, the current `len(S)` on `len` (entry 6). -/
def samplePorts (seq : Memory) (cursor : Nat) (r : Request) : Ports where
  op := r.op
  valIn := r.valIn
  unitIn := r.unitIn
  pos := r.pos
  curIn := r.curIn.getD cursor
  len := r.len.getD seq.length

/-- The outcomes of an operation (10_state.md R34), each with the results it defines (R23). -/
inductive Result where
  /-- OK BTST. -/
  | bit (b : BitVec 1)
  /-- OK BSET, BCLR. -/
  | unit (u : Byte)
  /-- OK ENCU, ENCS: `nbytes`. -/
  | encoded (n : Nat)
  /-- OK DECU, DECS: `val_out`, `cur_out`, `nbytes`. -/
  | decoded (v c n : Nat)
  /-- The error response (60_exceptions.md R106). -/
  | error (e : ErrKind)
  deriving DecidableEq, Repr

/-- What the response ports would carry if the operation defined none of them: free values on as many wires as each
port has (U3, entry 9). -/
def freeResponse (p : Params) (k : Nat) : Response where
  err := 0#2
  valOut := Config.freeValOut k % 2 ^ p.w
  curOut := Config.freeCurOut k % 2 ^ p.a
  unitOut := Config.freeUnitOut k
  bitOut := Config.freeBitOut k
  nbytes := Config.freeNbytes k % 2 ^ nbytesWidth p.w

/-- The response ports after an operation with this result: what the operation defines (R23), and `cur_out = cur_in`
on an error response (R106). -/
def drivePorts (p : Params) (k curIn : Nat) : Result → Response
  | .bit b => { freeResponse p k with bitOut := b }
  | .unit u => { freeResponse p k with unitOut := u }
  | .encoded n => { freeResponse p k with nbytes := n }
  | .decoded v c n => { freeResponse p k with valOut := v, curOut := c, nbytes := n }
  | .error e => { freeResponse p k with err := e.code, curOut := curIn }

end Sys2Proof.Machine
end

