-- ==== Sys2Proof/Machine/Ops.lean ====
section
/-! DEFINITION. The named operations: over the byte sequence, over the state, the response, the error response (the
block's only exception: there is no return from it, 60_exceptions.md R111), taking the next input. -/

namespace Sys2Proof.Machine

/-- The byte at an index, where there is one (20_memory.md R35). -/
def Memory.read (m : Memory) (i : Nat) : Option Byte := m.lookup i

/-- The bytes of the sequence, index 0 first. -/
def Memory.bytes (m : Memory) : List Byte := m.map Prod.snd

/-- `Append(S, b)`: one byte at index `len(S)` (20_memory.md R37). -/
def Memory.append (m : Memory) (b : Byte) : Memory := m ++ [(m.length, b)]

/-- "for each byte b of E, lowest index first: Append(S, b)" (41_unsigned_varint.md R77, 42_signed_varint.md R88). -/
def Memory.appendAll (m : Memory) : List Byte → Memory
  | [] => m
  | b :: bs => (m.append b).appendAll bs

/-- The sequence that holds these bytes. -/
def Memory.ofBytes (bs : List Byte) : Memory := Memory.appendAll [] bs

/-- Why `ByteRead` gives no byte. -/
inductive ReadStop where
  /-- `i >= len`: the error `TruncatedInput` (20_memory.md R36). -/
  | truncated
  /-- `i < len`, but the sequence holds no byte there: `len` is larger than the true length (70_reset_and_hazards.md
  R120). -/
  | absent
  deriving DecidableEq, Repr

/-- `ByteRead(S, i)`, the bounds check first (20_memory.md R36). -/
def byteRead (m : Memory) (len i : Nat) : Except ReadStop Byte :=
  if len ≤ i then .error .truncated
  else
    match m.read i with
    | some b => .ok b
    | none => .error .absent

/-- What a step answers. -/
abbrev Answer := Host.Outcome State Fault Refusal

/-- The end of an operation: its response is delivered. -/
def State.respond (s : State) (r : Result) : State :=
  { s with resp := some (drivePorts s.params s.freeCount s.req.curIn r), freeCount := s.freeCount + 1 }

/-- The error response (60_exceptions.md R106, R110): the code on `err`, `cur_out = cur_in`, the sequence and the
caller's cursor as they were. -/
def State.raise (s : State) (e : ErrKind) : State := s.respond (.error e)

/-- The end of a bit-group primitive: its result when the primitives are exposed, the error `IllegalOp` when they are
not (40_bit_primitives.md R71 to R73, 30_encoding.md R66). -/
def State.finishBitop (s : State) (r : Result) : Answer :=
  if s.params.bitopsExposed then .next (s.respond r) else .next (s.raise .illegalOp)

/-- Room for `n` more bytes: `len(S) + n <= 2^A - 1` (70_reset_and_hazards.md R123). -/
abbrev State.roomFor (s : State) (n : Nat) : Prop := s.seq.length + n ≤ 2 ^ s.params.a - 1

/-- The end of an encode: the bytes are appended (10_state.md R27), `nbytes` is their number, no cursor moves. Where
there is no room the spec gives no meaning (R123, U7: entry 4). -/
def State.finishEncode (s : State) (e : List Byte) : Answer :=
  if s.roomFor e.length then .next ({ s with seq := s.seq.appendAll e }.respond (.encoded e.length))
  else .refused .sequenceFull

/-- The caller's obligation on `len` (70_reset_and_hazards.md R120): not more than the true length. -/
abbrev State.lenHonest (s : State) : Prop := s.req.len ≤ s.seq.length

/-- The end of a decode: the value and the number of bytes consumed, with the caller's cursor one past the last
(10_state.md R25, R26); or the error response. Where `len` is larger than the true length the decode is refused, whatever
bytes it would need (R120, U10: entry 5); a canonical sequence has a byte at every index below an honest `len`. -/
def State.finishDecode (s : State) (d : Except ReadStop (Nat × Nat)) : Answer :=
  if s.lenHonest then
    match d with
    | .ok (v, n) => .next ({ s with cursor := s.req.curIn + n }.respond (.decoded v (s.req.curIn + n) n))
    | .error .truncated => .next (s.raise .truncatedInput)
    | .error .absent => .refused .lenBeyondSequence
  else .refused .lenBeyondSequence

/-- The start of an operation: the request's operands are sampled on the ports (10_state.md R22). -/
def State.sample (s : State) (r : Request) : State :=
  { s with req := samplePorts s.seq s.cursor r }

/-- Reset between operations (70_reset_and_hazards.md R117, 10_state.md R33): no response exists; the caller's sequence
and cursor are as they were. -/
def State.blockReset (s : State) : State := { s with resp := none }

/-- The caller presents a sequence and a cursor (entry 7). -/
def State.present (s : State) (bytes : List Byte) (cursor : Nat) : State :=
  { s with seq := Memory.ofBytes bytes, cursor := cursor }

/-- The next input, taken from the front of those pending. -/
def State.takeInput (s : State) : Option (Input × State) :=
  match s.pending with
  | [] => none
  | x :: rest => some (x, { s with pending := rest })

/-- The request that a table word stands for: the code on `op`, every operand 0 or as R68 drives it. -/
def requestOfWord (w : Nat) : Request :=
  { op := opOfWord w, valIn := 0, unitIn := 0, pos := 0, curIn := none, len := none }

end Sys2Proof.Machine
end

