-- ==== Sys2Proof/Machine/BitPrimitives.lean ====
section
/-! DEFINITION. The bit-group primitives (40_bit_primitives.md). They touch neither the sequence nor a cursor (R70). -/

namespace Sys2Proof.Machine

/-- `BTST: bit_out <- bit_test(unit_in, pos)` (R71). -/
def execBtst (s : State) : Answer := s.finishBitop (.bit (bitTest s.req.unitIn s.req.pos))

/-- `BSET: unit_out <- bit_set(unit_in, pos)` (R72). -/
def execBset (s : State) : Answer := s.finishBitop (.unit (bitSet s.req.unitIn s.req.pos))

/-- `BCLR: unit_out <- bit_clear(unit_in, pos)` (R73). -/
def execBclr (s : State) : Answer := s.finishBitop (.unit (bitClear s.req.unitIn s.req.pos))

end Sys2Proof.Machine
end

