-- ==== Sys2Proof/Machine/Unsigned.lean ====
section
/-! DEFINITION. The unsigned varint codec (41_unsigned_varint.md). -/

namespace Sys2Proof.Machine

/-- The loop of `enc_u` (R76), least significant group first. The first argument only makes the recursion structural;
`encU` gives it enough (each group takes at least one bit off a number that is not 0). -/
def encGroups : Nat → Nat → List Byte
  | 0, v => [groupByte false v]
  | fuel + 1, v =>
    if v >>> 7 ≠ 0 then groupByte true v :: encGroups fuel (v >>> 7) else [groupByte false v]

/-- `enc_u(v)` (R76), for every natural number. -/
def encU (v : Nat) : List Byte := encGroups (bitLen v) v

/-- `dec_groups` (R79): read group bytes from index `i0 + i` on, `left` of them at most, and OR each payload, shifted by
`sh + 7 * i` and cut to `W` bits, into `r`; stop after the first byte whose bit 7 is clear, or at the bound. Gives the
pattern and the number of bytes consumed. -/
def decGroupsFrom (w : Nat) (m : Memory) (len i0 sh : Nat) : (left i r : Nat) → Except ReadStop (Nat × Nat)
  | 0, i, r => .ok (r, i)
  | left + 1, i, r =>
    match byteRead m len (i0 + i) with
    | .error e => .error e
    | .ok b =>
      let r' := r ||| truncW w (payload b <<< (sh + 7 * i))
      if groupFlag b then decGroupsFrom w m len i0 sh left (i + 1) r' else .ok (r', i + 1)

/-- `dec_groups(S, len, i0, n_max, sh)` (R79). -/
def decGroups (w : Nat) (m : Memory) (len i0 nMax sh : Nat) : Except ReadStop (Nat × Nat) :=
  decGroupsFrom w m len i0 sh nMax 0 0

/-- The value and the byte count of `DECU` (R80). -/
def decU (w : Nat) (m : Memory) (len c : Nat) : Except ReadStop (Nat × Nat) :=
  decGroups w m len c (groupsU w) 0

/-- `Lossy_u(S, c)` (R81, a predicate for tests: no output reports it): bytes `c .. c + G_u - 2` all have bit 7 set, and
byte `c + G_u - 1` has bit 7 set or a payload bit at a position `>= W - 7(G_u - 1)`. -/
def lossyU (w : Nat) (m : Memory) (c : Nat) : Bool :=
  (List.range (groupsU w - 1)).all (fun j => (m.read (c + j)).any groupFlag) &&
    (m.read (c + (groupsU w - 1))).any fun b => groupFlag b || payload b >>> (w - 7 * (groupsU w - 1)) != 0

/-- `ENCU value` (R77). -/
def execEncu (s : State) : Answer := s.finishEncode (encU s.req.valIn)

/-- `DECU` (R80 to R82). -/
def execDecu (s : State) : Answer := s.finishDecode (decU s.params.w s.seq s.req.len s.req.curIn)

end Sys2Proof.Machine
end

