-- ==== Sys2Proof/Machine/Signed.lean ====
section
/-! DEFINITION. The signed varint codec, the corrected contract (42_signed_varint.md R85). -/

namespace Sys2Proof.Machine

/-- `s = u[W-1]` (R86). -/
def signOf (w u : Nat) : Bool := u.testBit (w - 1)

/-- `mag = neg_W(u) if s = 1 else u`, an unsigned `W`-bit number (R86). -/
def magnitude (w u : Nat) : Nat := if signOf w u then negW w u else u

/-- `enc_s(signed_W(u))` (R87), on the pattern `u` that `val_in` carries. -/
def encS (w u : Nat) : List Byte :=
  let low := magnitude w u &&& 0x3F
  let rem := magnitude w u >>> 6
  if rem = 0 then [firstByte (signOf w u) false low]
  else firstByte (signOf w u) true low :: encU rem

/-- "finally negating the result if the sign flag was set": `neg_W(mag) if s = 1 else mag` (R92). -/
def applySign (w : Nat) (sign : Bool) (mag : Nat) : Nat := if sign then negW w mag else mag

/-- The pattern and the byte count of `DECS` (R92): the first byte, then, only if its continuation flag is set, at most
`G_s` continuation groups shifted up by 6. -/
def decS (w : Nat) (m : Memory) (len c : Nat) : Except ReadStop (Nat × Nat) :=
  match byteRead m len c with
  | .error e => .error e
  | .ok f =>
    if firstFlag f then
      match decGroups w m len (c + 1) (groupsS w) 6 with
      | .error e => .error e
      | .ok (r, n) => .ok (applySign w (signFlag f) (firstBits f ||| r), 1 + n)
    else .ok (applySign w (signFlag f) (firstBits f), 1)

/-- `ENCS value` (R88). -/
def execEncs (s : State) : Answer := s.finishEncode (encS s.params.w s.req.valIn)

/-- `DECS` (R92 to R94). -/
def execDecs (s : State) : Answer := s.finishDecode (decS s.params.w s.seq s.req.len s.req.curIn)

end Sys2Proof.Machine
end

