-- ==== Sys2Proof/Machine/Generic.lean ====
section
/-! DEFINITION. The generic entry points: static dispatch on the caller-declared signedness, never on the value's sign
(43_generic_dispatch.md R97). -/

namespace Sys2Proof.Machine

/-- `ENC.s value`: ENCU if `s` = 0, ENCS if `s` = 1 (R98). -/
def execEncGen (signed : Bool) (s : State) : Answer := if signed then execEncs s else execEncu s

/-- `DEC.s`: DECU if `s` = 0, DECS if `s` = 1 (R99). -/
def execDecGen (signed : Bool) (s : State) : Answer := if signed then execDecs s else execDecu s

end Sys2Proof.Machine
end

