-- ==== Sys2Proof/Machine/Dispatch.lean ====
section
/-! DEFINITION. One arm per operation. -/

namespace Sys2Proof.Machine

/-- What an operation does to the state whose request ports carry its operands. -/
def exec (i : Instr) (s : State) : Host.Outcome State Fault Refusal :=
  match i with
  -- 40_bit_primitives.md
  | .btst => Sys2Proof.Machine.execBtst s
  | .bset => Sys2Proof.Machine.execBset s
  | .bclr => Sys2Proof.Machine.execBclr s
  -- 41_unsigned_varint.md, 42_signed_varint.md
  | .encu => Sys2Proof.Machine.execEncu s
  | .encs => Sys2Proof.Machine.execEncs s
  | .decu => Sys2Proof.Machine.execDecu s
  | .decs => Sys2Proof.Machine.execDecs s
  -- 43_generic_dispatch.md
  | .encGen sgn => Sys2Proof.Machine.execEncGen sgn s
  | .decGen sgn => Sys2Proof.Machine.execDecGen sgn s

end Sys2Proof.Machine
end

