-- ==== Sys2Proof/Machine/Step.lean ====
section
/-! DEFINITION. One step: the next thing the outside world does, a request being one operation from start to response
(20_memory.md R44). -/

namespace Sys2Proof.Machine

/-- A step. With nothing pending the block is idle (70_reset_and_hazards.md R117) and nothing changes. A request is
sampled, its code decoded, and the operation run; a reserved code answers `IllegalOp` with no access and no effect
(30_encoding.md R66, 60_exceptions.md R105; entry 3). -/
def step (s : State) : Host.Outcome State Fault Refusal :=
  match s.takeInput with
  | none => .next s
  | some (.blockReset, s₁) => .next s₁.blockReset
  | some (.present bytes cursor, s₁) => .next (s₁.present bytes cursor)
  | some (.request r, s₁) =>
    let s₂ := s₁.sample r
    match decodeOp s₂.req.op with
    | .ok i => exec i s₂
    | .error _ => .next (s₂.raise .illegalOp)

/-- The state whose next step runs the instruction of this table word: its request is the first one pending. -/
def State.withFetchWord (s : State) (_nbits w : Nat) : State :=
  { s with pending := .request (requestOfWord w) :: s.pending }

end Sys2Proof.Machine
end

