-- ==== Sys2Proof/Safety.lean ====
section
/-! DEFINITION. What a run keeps and what the caller owes, in the terms the claims use. -/

namespace Sys2Proof.Machine

/-- Every operand fits its port (10_state.md R22). -/
abbrev Ports.fits (p : Params) (q : Ports) : Prop := q.valIn < 2 ^ p.w ∧ q.curIn < 2 ^ p.a ∧ q.len < 2 ^ p.a

/-- Every result fits its port (10_state.md R23), and the error code 3 is not there (60_exceptions.md R107). -/
abbrev Response.fits (p : Params) (r : Response) : Prop :=
  r.valOut < 2 ^ p.w ∧ r.curOut < 2 ^ p.a ∧ r.nbytes < 2 ^ nbytesWidth p.w ∧ r.err ≠ 3#2

/-- The invariant: the parameters are an instance's (00_scope.md R10), the sequence has its canonical form and no more
than `2^A - 1` bytes (70_reset_and_hazards.md R123), the cursor and the ports fit their widths (00_scope.md R12; the
cursor never wraps, 10_state.md R26), and what the caller has yet to do keeps its obligations. -/
abbrev State.Inv (s : State) : Prop :=
  s.params.wf ∧ s.seq.wf ∧ s.seq.length < 2 ^ s.params.a ∧ s.cursor < 2 ^ s.params.a ∧
    (∀ x ∈ s.pending, x.wf s.params = true) ∧ s.req.fits s.params ∧
    (∀ r ∈ s.resp.toList, r.fits s.params)

/-- The caller's obligation on room (70_reset_and_hazards.md R123): the longest encoding fits. -/
abbrev State.roomy (s : State) : Prop := s.roomFor (max (maxLenU s.params.w) (maxLenS s.params.w))

end Sys2Proof.Machine
end

