-- ==== Sys2Proof/Certificates/Slice0/Obligations.lean ====
section
/-! DEFINITION. What is claimed of the model: one definition per claim, and the words the claims are written in. -/

namespace Sys2Proof.Claims

open Sys2Proof.Machine

/-! The words of the claims. They are written from the spec's bit layouts, not with the model's own helpers, wherever a
claim is about those helpers. -/

/-- The response of `t` is there and satisfies `P`. -/
def Answers (t : State) (P : Response → Prop) : Prop := ∃ p, t.resp = some p ∧ P p

/-- Parameters, pending inputs and request ports are as they were. -/
def SameInputs (s t : State) : Prop := t.params = s.params ∧ t.pending = s.pending ∧ t.req = s.req

/-- The byte sequence is as it was: the same length, and every index reads as before. -/
def SameBytes (s t : State) : Prop := t.seq.length = s.seq.length ∧ ∀ a, t.seq.read a = s.seq.read a

/-- The frame of an operation that gives a response and nothing else. -/
def OnlyResponds (s t : State) : Prop := SameInputs s t ∧ SameBytes s t ∧ t.cursor = s.cursor

/-- The frame of a decode that consumed up to `c`: the sequence as it was, the cursor at `c`. -/
def OnlyMovesCursorTo (s t : State) (c : Nat) : Prop := SameInputs s t ∧ SameBytes s t ∧ t.cursor = c

/-- The frame of an encode: the bytes `e` stand at the indexes from the old length on, every other index reads as
before, the cursor is as it was. -/
def OnlyAppends (s t : State) (e : List Byte) : Prop :=
  SameInputs s t ∧ t.cursor = s.cursor ∧ t.seq.length = s.seq.length + e.length ∧
    (∀ j, j < e.length → t.seq.read (s.seq.length + j) = e[j]?) ∧
    ∀ a, a < s.seq.length ∨ s.seq.length + e.length ≤ a → t.seq.read a = s.seq.read a

/-- The error response with this code on `err` (60_exceptions.md R106): `cur_out = cur_in`, nothing else changed. -/
def FailsWith (s t : State) (code : BitVec 2) : Prop :=
  Answers t (fun p => p.err = code ∧ p.curOut = s.req.curIn) ∧ OnlyResponds s t

/-- An OK encode response. -/
def Encoded (t : State) (n : Nat) : Prop := Answers t fun p => p.err = 0#2 ∧ p.nbytes = n

/-- An OK decode response. -/
def Decoded (t : State) (v c n : Nat) : Prop :=
  Answers t fun p => p.err = 0#2 ∧ p.valOut = v ∧ p.curOut = c ∧ p.nbytes = n

/-- The bytes `bs` stand in the sequence at index `c`. -/
def StandsAt (m : Memory) (c : Nat) (bs : List Byte) : Prop := ∀ j, j < bs.length → m.read (c + j) = bs[j]?

/-- The payloads `b[6:0]`, the first at bit position `sh`, each next one 7 higher (30_encoding.md R55). -/
def orGroups (sh : Nat) : List Byte → Nat
  | [] => 0
  | b :: bs => ((b.extractLsb' 0 7).toNat <<< sh) ||| orGroups (sh + 7) bs

/-- A run of group bytes as a decoder with this bound finds it (30_encoding.md R54): bit 7 is set in every byte but the
last, and the last one has it clear or is the one at the bound. -/
def GroupRun (bound : Nat) (bs : List Byte) : Prop :=
  bs ≠ [] ∧ bs.length ≤ bound ∧
    (∀ j b, bs[j]? = some b → j + 1 < bs.length → b.getLsbD 7 = true) ∧
    (bs.length = bound ∨ ∀ b, bs.getLast? = some b → b.getLsbD 7 = false)

/-- Every index from `lo` up to but not including `hi` holds a byte with bit 7 set. -/
def AllFlagged (m : Memory) (lo hi : Nat) : Prop :=
  ∀ a, lo ≤ a → a < hi → ∃ b, m.read a = some b ∧ b.getLsbD 7 = true

/-- `neg_W(mag)` if the sign flag is set, else `mag` (30_encoding.md R56). -/
def signedPattern (w : Nat) (sign : Bool) (mag : Nat) : Nat := if sign then (2 ^ w - mag) % 2 ^ w else mag

/-- The value and length of a signed encoding with first byte `f` and continuation bytes `gs` (30_encoding.md R56). -/
def signedValue (w : Nat) (f : Byte) (gs : List Byte) : Nat :=
  signedPattern w (f.getLsbD 7) (((f.extractLsb' 0 6).toNat ||| orGroups 6 gs) % 2 ^ w)

/-- The bytes that an encode of the pattern `u` produces, by signedness. -/
def encBytes (w : Nat) (signed : Bool) (u : Nat) : List Byte := if signed then encS w u else encU u

/-- The bound on the bytes of one encoding, by signedness. -/
def maxLen (w : Nat) (signed : Bool) : Nat := if signed then maxLenS w else maxLenU w

/-- The codes of 30_encoding.md R66: nine, and three more where the bit-group primitives are not exposed. -/
def ReservedCode (p : Params) (op : OpCode) : Prop :=
  op = 0b0011#4 ∨ op.getLsbD 2 = true ∨ (p.bitopsExposed = false ∧ (op = 0b0000#4 ∨ op = 0b0001#4 ∨ op = 0b0010#4))

/-- The same answer on the ports that the operation defines. -/
def SameAnswer (t u : State) : Prop :=
  ∃ p q, t.resp = some p ∧ u.resp = some q ∧ q.err = p.err ∧ q.curOut = p.curOut ∧
    (p.err = 0#2 → q.valOut = p.valOut ∧ q.nbytes = p.nbytes)

/-- `s` with `extra` appended to its sequence and the new length on the `len` port. -/
def grown (s : State) (extra : List Byte) : State :=
  { s with seq := s.seq.appendAll extra, req := { s.req with len := (s.seq.appendAll extra).length } }

/-- A request with operands as 30_encoding.md R68 drives them. -/
def request (op : OpCode) (u : Nat) : Input :=
  .request { op := op, valIn := u, unitIn := 0, pos := 0, curIn := none, len := none }

/-- `ENC.s u` as a request: the code `100s`. -/
def encodeRequest (x : Bool × Nat) : Input := request (if x.1 then 0b1001#4 else 0b1000#4) x.2

/-- `DEC.s` as a request: the code `101s`. -/
def decodeRequest (x : Bool × Nat) : Input := request (if x.1 then 0b1011#4 else 0b1010#4) 0

/-- The bytes of several values, encoded back to back. -/
def encodeAll (w : Nat) (xs : List (Bool × Nat)) : List Byte := xs.flatMap fun x => encBytes w x.1 x.2

end Sys2Proof.Claims

open Sys2Proof Sys2Proof.Machine Sys2Proof.Claims

/-! ## Reset, inputs, the step -/

/-- The state after reset meets the invariant. It rests on the values the model chose for reset (entries 1 and 14). -/
def Obligations.ResetStateMeetsInvariant : Prop := State.reset.Inv

/-- 70_reset_and_hazards.md R117: reset between operations touches nothing of the caller's, and the operation after it
behaves as any other. That no response is there afterwards is read from 10_state.md R33 (entry 8). The last clause equates
whole answers, the response ports that the spec leaves unspecified among them: for those it rests on the model's free
values, which are the same in both because the count is (entry 9). -/
def Obligations.BlockResetIsInvisible : Prop :=
  (∀ (s : State) (rest : List Input), s.pending = .blockReset :: rest →
    ∃ t, step s = .next t ∧ t.params = s.params ∧ SameBytes s t ∧ t.cursor = s.cursor ∧ t.pending = rest ∧ t.resp = none) ∧
  ∀ (i : Instr) (s : State), exec i s.blockReset = exec i s

/-- With nothing pending the block is idle and a step changes nothing (70_reset_and_hazards.md R117 "idle"; the step
that answers the same state is the model's choice, entry 6). -/
def Obligations.IdleStepChangesNothing : Prop := ∀ s : State, s.pending = [] → step s = .next s

/-- The caller presents a sequence and a cursor (the model's input, entry 7). -/
def Obligations.PresentSetsSequenceAndCursor : Prop :=
  ∀ (s : State) (bytes : List Byte) (c : Nat) (rest : List Input), s.pending = .present bytes c :: rest →
    ∃ t, step s = .next t ∧ t.params = s.params ∧ t.req = s.req ∧ t.resp = s.resp ∧ t.pending = rest ∧ t.cursor = c ∧
      t.seq.length = bytes.length ∧ ∀ a, t.seq.read a = bytes[a]?

/-- A step runs the decoded operation: the request is taken from the front, its operands stand on the ports (cur_in and
len driven as 30_encoding.md R68 says where the caller gives none, entry 6), and the step is `exec` of the operation its
code decodes to. -/
def Obligations.StepRunsDecodedRequest : Prop :=
  ∀ (s : State) (r : Request) (rest : List Input) (i : Instr),
    s.pending = .request r :: rest → decodeOp r.op = .ok i →
    step s = exec i { s with
      pending := rest
      req := { op := r.op, valIn := r.valIn, unitIn := r.unitIn, pos := r.pos,
               curIn := r.curIn.getD s.cursor, len := r.len.getD s.seq.length } }

/-- 30_encoding.md R66: a request answers IllegalOp exactly when its code is reserved (nine codes, twelve without the
bit-group primitives); then nothing is appended, no cursor moves. -/
def Obligations.IllegalOpExactlyForReservedCodes : Prop :=
  ∀ (s : State) (r : Request) (rest : List Input), s.pending = .request r :: rest →
    ((∃ t, step s = .next t ∧ Answers t fun p => p.err = 2#2) ↔ ReservedCode s.params r.op) ∧
    (ReservedCode s.params r.op → ∃ t, step s = .next t ∧ t.params = s.params ∧ t.pending = rest ∧ SameBytes s t ∧
      t.cursor = s.cursor ∧ Answers t fun p => p.err = 2#2 ∧ p.curOut = r.curIn.getD s.cursor)

/-- Every step takes at most one input (the model's device, entry 6), never changes the parameters (fixed for an instance,
00_scope.md R10, R12, R13; a field of State by entry 1), and touches the sequence only by appending (10_state.md R27, R28)
unless the input presents another sequence (the model's device, entry 7). -/
def Obligations.StepTakesOneInput : Prop :=
  ∀ s t : State, step s = .next t →
    t.params = s.params ∧ t.pending = s.pending.tail ∧
    ((∀ bytes c, s.pending.head? ≠ some (.present bytes c)) → ∃ e : List Byte, t.seq = s.seq.appendAll e)

/-- The invariant is kept by every step, from every state that has it. -/
def Obligations.EveryStepKeepsInvariant : Prop := ∀ s t : State, s.Inv → step s = .next t → t.Inv

/-! ## The operation-select code -/

/-- The operation code table (30_encoding.md section 5), word by word, bits written out from the table. -/
def Obligations.TableWordsDecode : Prop :=
  decodeTableWord 8 0b0000 = some .btst ∧ decodeTableWord 8 0b0001 = some .bset ∧
  decodeTableWord 8 0b0010 = some .bclr ∧ decodeTableWord 8 0b1000 = some .encu ∧
  decodeTableWord 8 0b1001 = some .encs ∧ decodeTableWord 8 0b1010 = some .decu ∧
  decodeTableWord 8 0b1011 = some .decs ∧
  ∀ n ∈ [0b0011, 0b0100, 0b0101, 0b0110, 0b0111, 0b1100, 0b1101, 0b1110, 0b1111], decodeTableWord 8 n = none

/-- Decode and encode agree in both directions; a pseudo-operation decodes to the operation it stands for
(30_encoding.md R69, entry 10). -/
def Obligations.DecodeAndEncodeAgree : Prop :=
  (∀ i : Instr, decodeOp (encode i) = .ok i.expand) ∧
  (∀ (op : OpCode) (i : Instr), decodeOp op = .ok i → encode i = op ∧ i.expand = i) ∧
  ∀ s : Bool, (encode (.encGen s)).getLsbD 0 = s ∧ (encode (.decGen s)).getLsbD 0 = s ∧
    (encode (.encGen s)).getLsbD 1 = false ∧ (encode (.decGen s)).getLsbD 1 = true

/-! ## The bit-group primitives -/

/-- 40_bit_primitives.md R71: `bit_out` is bit `p` of `u`, as one bit, 1 = set (the spec's decision D7). -/
def Obligations.BtstTestsOneBit : Prop :=
  decodeOp 0b0000#4 = .ok .btst ∧ ∀ s : State,
    (s.params.bitopsExposed = true → ∃ t, exec .btst s = .next t ∧ OnlyResponds s t ∧
      Answers t fun p => p.err = 0#2 ∧ p.bitOut = if s.req.unitIn.getLsbD s.req.pos.toNat then 1#1 else 0#1) ∧
    (s.params.bitopsExposed = false → ∃ t, exec .btst s = .next t ∧ FailsWith s t 2#2)

/-- 40_bit_primitives.md R72: every bit other than bit `p` equals the same bit of `u`, bit `p` is 1; nothing else
changes; where the primitives are not exposed, IllegalOp. -/
def Obligations.BsetSetsOneBit : Prop :=
  decodeOp 0b0001#4 = .ok .bset ∧ ∀ s : State,
    (s.params.bitopsExposed = true → ∃ t, exec .bset s = .next t ∧ OnlyResponds s t ∧
      Answers t fun p => p.err = 0#2 ∧ ∀ q, q < 8 →
        p.unitOut.getLsbD q = if q = s.req.pos.toNat then true else s.req.unitIn.getLsbD q) ∧
    (s.params.bitopsExposed = false → ∃ t, exec .bset s = .next t ∧ FailsWith s t 2#2)

/-- 40_bit_primitives.md R73: every bit other than bit `p` equals the same bit of `u`, bit `p` is 0; nothing else
changes; where the primitives are not exposed, IllegalOp. -/
def Obligations.BclrClearsOneBit : Prop :=
  decodeOp 0b0010#4 = .ok .bclr ∧ ∀ s : State,
    (s.params.bitopsExposed = true → ∃ t, exec .bclr s = .next t ∧ OnlyResponds s t ∧
      Answers t fun p => p.err = 0#2 ∧ ∀ q, q < 8 →
        p.unitOut.getLsbD q = if q = s.req.pos.toNat then false else s.req.unitIn.getLsbD q) ∧
    (s.params.bitopsExposed = false → ∃ t, exec .bclr s = .next t ∧ FailsWith s t 2#2)

/-- 40_bit_primitives.md R74, all its laws, and where the codec uses the primitives: the flag and payload of a group
byte, the sign flag, continuation flag and magnitude bits of a signed first byte, tested, cleared and put on. -/
def Obligations.BitPrimitiveLaws : Prop :=
  (∀ (u : Byte) (p : Pos),
    bitTest (bitSet u p) p = 1#1 ∧ bitTest (bitClear u p) p = 0#1 ∧
    bitSet (bitSet u p) p = bitSet u p ∧ bitClear (bitClear u p) p = bitClear u p ∧
    bitClear (bitSet u p) p = bitClear u p ∧ bitSet (bitClear u p) p = bitSet u p ∧
    (bitSet u p = u ↔ bitTest u p = 1#1) ∧ (bitClear u p = u ↔ bitTest u p = 0#1)) ∧
  (∀ (u : Byte) (p q : Pos), q ≠ p →
    bitTest (bitSet u p) q = bitTest u q ∧ bitTest (bitClear u p) q = bitTest u q ∧
    bitSet (bitSet u p) q = bitSet (bitSet u q) p ∧ bitClear (bitClear u p) q = bitClear (bitClear u q) p ∧
    bitSet (bitClear u p) q = bitClear (bitSet u q) p) ∧
  (∀ b : Byte, (groupFlag b = true ↔ bitTest b 7#3 = 1#1) ∧ payload b = (bitClear b 7#3).toNat ∧
    payload b = (b.extractLsb' 0 7).toNat) ∧
  (∀ f : Byte, (signFlag f = true ↔ bitTest f 7#3 = 1#1) ∧ (firstFlag f = true ↔ bitTest f 6#3 = 1#1) ∧
    firstBits f = (bitClear (bitClear f 7#3) 6#3).toNat ∧ firstBits f = (bitClear (bitClear f 6#3) 7#3).toNat ∧
    firstBits f = (f.extractLsb' 0 6).toNat) ∧
  (∀ v : Nat, groupByte true v = bitSet (groupByte false v) 7#3) ∧
  ∀ (s c : Bool) (low : Nat), firstByte true c low = bitSet (firstByte false c low) 7#3 ∧
    firstByte s true low = bitSet (firstByte s false low) 6#3

/-! ## Encoding -/

/-- ENCU appends `enc_u(val_in)` and nothing else (41_unsigned_varint.md R77), where the caller has left room (R123). -/
def Obligations.EncuAppendsItsBytes : Prop :=
  ∀ s : State, s.seq.wf → s.roomFor (encU s.req.valIn).length →
    ∃ t, exec .encu s = .next t ∧ OnlyAppends s t (encU s.req.valIn) ∧ Encoded t (encU s.req.valIn).length

/-- ENCS appends `enc_s` of the value on `val_in` and nothing else (42_signed_varint.md R88), where the caller has left
room (R123). -/
def Obligations.EncsAppendsItsBytes : Prop :=
  ∀ s : State, s.seq.wf → s.roomFor (encS s.params.w s.req.valIn).length →
    ∃ t, exec .encs s = .next t ∧ OnlyAppends s t (encS s.params.w s.req.valIn) ∧
      Encoded t (encS s.params.w s.req.valIn).length

/-- 43_generic_dispatch.md R98: ENC.s is ENCU for `s` = 0 and ENCS for `s` = 1, whatever the value's top bit. -/
def Obligations.EncGenFollowsDeclaredSignedness : Prop :=
  (∀ s : Bool, decodeOp (if s then 0b1001#4 else 0b1000#4) = .ok (Instr.encGen s).expand) ∧
  (∀ s : State, exec (.encGen false) s = exec .encu s ∧ exec (.encGen true) s = exec .encs s) ∧
  (∀ (sgn : Bool) (s : State), s.seq.wf → s.roomFor (encBytes s.params.w sgn s.req.valIn).length →
    ∃ t, exec (.encGen sgn) s = .next t ∧ OnlyAppends s t (encBytes s.params.w sgn s.req.valIn) ∧
      Encoded t (encBytes s.params.w sgn s.req.valIn).length) ∧
  encBytes 8 false 0xFF = [0xFF#8, 0x01#8] ∧ encBytes 8 true 0xFF = [0x81#8]

/-- The stop of an encode, exactly: the encoding would take len(S) beyond `2^A - 1` (U7; the stop is the model's choice,
entry 4). -/
def Obligations.EncodeRefusedExactlyWithoutRoom : Prop :=
  ∀ (s : State) (sgn : Bool),
    (exec .encu s = .refused .sequenceFull ↔ ¬ s.roomFor (encU s.req.valIn).length) ∧
    (exec .encs s = .refused .sequenceFull ↔ ¬ s.roomFor (encS s.params.w s.req.valIn).length) ∧
    (exec (.encGen sgn) s = .refused .sequenceFull ↔ ¬ s.roomFor (encBytes s.params.w sgn s.req.valIn).length)

/-- 41_unsigned_varint.md R78: the length of `enc_u(v)`, three ways, its bound, and each of its bytes. -/
def Obligations.UnsignedEncodingClosedForm : Prop :=
  ∀ v : Nat,
    (encU v).length = (if v < 128 then 1 else ceilDiv (bitLen v) 7) ∧
    1 ≤ (encU v).length ∧ v < 128 ^ (encU v).length ∧
    (2 ≤ (encU v).length → 128 ^ ((encU v).length - 1) ≤ v) ∧
    (∀ w, v < 2 ^ w → 0 < w → (encU v).length ≤ groupsU w) ∧
    ∀ i, i < (encU v).length → (encU v)[i]? =
      some (BitVec.ofNat 8 (((v >>> (7 * i)) &&& 0x7F) ||| if i < (encU v).length - 1 then 0x80 else 0))

/-- No shorter byte sequence assembles to the value (30_encoding.md R57 and R55), the encoding itself does, and in an
encoding of more than one byte the last byte is not 0x00. -/
def Obligations.UnsignedEncodingIsMinimal : Prop :=
  ∀ w v : Nat, v < 2 ^ w →
    orGroups 0 (encU v) % 2 ^ w = v ∧
    (∀ bs : List Byte, bs ≠ [] → orGroups 0 bs % 2 ^ w = v → (encU v).length ≤ bs.length) ∧
    (1 < (encU v).length → (encU v).getLast? ≠ some 0x00#8)

/-- 00_scope.md R16: `bits_W` and `signed_W` are inverse on the `W`-bit ranges (two's complement, entry 13). -/
def Obligations.TwosComplementPatternsAreInverse : Prop :=
  ∀ w : Nat, 0 < w →
    (∀ v : Int, -2 ^ (w - 1) ≤ v → v < 2 ^ (w - 1) → bitsW w v < 2 ^ w ∧ signedW w (bitsW w v) = v) ∧
    ∀ u : Nat, u < 2 ^ w → -2 ^ (w - 1) ≤ signedW w u ∧ signedW w u < 2 ^ (w - 1) ∧ bitsW w (signedW w u) = u

/-- 42_signed_varint.md R86: sign and magnitude of every signed `W`-bit value, the minimum included (the unsigned
magnitude of the minimum is the spec's decision D12; two's complement is PRESUMED, entry 13). -/
def Obligations.SignAndMagnitudeOfEveryValue : Prop :=
  ∀ (w : Nat) (v : Int), 0 < w → -2 ^ (w - 1) ≤ v → v < 2 ^ (w - 1) →
    (signOf w (bitsW w v) = true ↔ v < 0) ∧ magnitude w (bitsW w v) = v.natAbs ∧
    magnitude w (bitsW w v) ≤ 2 ^ (w - 1)

/-- 42_signed_varint.md R87: the bytes of `enc_s(v)`, from the sign and `abs(v)`. -/
def Obligations.SignedEncodingBytes : Prop :=
  ∀ (w : Nat) (v : Int), 8 ≤ w → -2 ^ (w - 1) ≤ v → v < 2 ^ (w - 1) →
    encS w (bitsW w v) =
      (if v.natAbs ≤ 63 then [BitVec.ofNat 8 ((if v < 0 then 128 else 0) + v.natAbs)]
       else BitVec.ofNat 8 ((if v < 0 then 128 else 0) + 64 + v.natAbs % 64) :: encU (v.natAbs / 64)) ∧
    (63 < v.natAbs → 1 ≤ (encU (v.natAbs / 64)).length ∧ (encU (v.natAbs / 64)).length ≤ groupsS w ∧
      (encU (v.natAbs / 64)).getLast? ≠ some 0x00#8) ∧
    (encS w (bitsW w v)).head? ≠ some 0x80#8

/-- 42_signed_varint.md R89: the length of `enc_s(v)`, and its bound. -/
def Obligations.SignedEncodingLength : Prop :=
  ∀ (w : Nat) (v : Int), 8 ≤ w → -2 ^ (w - 1) ≤ v → v < 2 ^ (w - 1) →
    (encS w (bitsW w v)).length =
      (if v.natAbs ≤ 63 then 1 else 1 + ceilDiv (bitLen v.natAbs - 6) 7) ∧
    (63 < v.natAbs → (encS w (bitsW w v)).length = 1 + (encU (v.natAbs >>> 6)).length) ∧
    (∀ k, 2 ≤ k → ((encS w (bitsW w v)).length = k ↔
      2 ^ (6 + 7 * (k - 2)) ≤ v.natAbs ∧ v.natAbs < 2 ^ (6 + 7 * (k - 1)))) ∧
    (encS w (bitsW w v)).length ≤ maxLenS w

/-- 42_signed_varint.md R90: `v` and `-v` differ only in the sign bit of the first byte. -/
def Obligations.SignFidelity : Prop :=
  ∀ (w : Nat) (v : Int), 8 ≤ w → 0 < v → v ≤ 2 ^ (w - 1) - 1 →
    ∃ (f : Byte) (rest : List Byte), encS w (bitsW w v) = f :: rest ∧ f.getLsbD 7 = false ∧
      encS w (bitsW w (-v)) = (f ||| 0x80#8) :: rest

/-! ## Decoding -/

/-- DECU of a run of group bytes at `cur_in` (41_unsigned_varint.md R79 to R81; 30_encoding.md R54, R55): the value they
assemble to, the bits at `W` and above dropped, the cursor one past the last byte; a run that ends at the bound is no
different. `len` is not more than the true length (R120). -/
def Obligations.DecuReadsTheValue : Prop :=
  ∀ (s : State) (bs : List Byte), s.lenHonest → StandsAt s.seq s.req.curIn bs → GroupRun (groupsU s.params.w) bs →
    s.req.curIn + bs.length ≤ s.req.len →
    ∃ t, exec .decu s = .next t ∧ OnlyMovesCursorTo s t (s.req.curIn + bs.length) ∧
      Decoded t (orGroups 0 bs % 2 ^ s.params.w) (s.req.curIn + bs.length) bs.length

/-- 41_unsigned_varint.md R82: exactly when DECU answers TruncatedInput, and what it leaves. -/
def Obligations.DecuTruncatedExactly : Prop :=
  ∀ s : State, s.params.wf → s.seq.wf → s.lenHonest →
    ((∃ t, exec .decu s = .next t ∧ Answers t fun p => p.err = 1#2) ↔
      s.req.len ≤ s.req.curIn ∨
        (AllFlagged s.seq s.req.curIn s.req.len ∧ s.req.len - s.req.curIn < groupsU s.params.w)) ∧
    ∀ t, exec .decu s = .next t → (Answers t fun p => p.err = 1#2) → FailsWith s t 1#2

/-- DECS of a first byte and its continuation bytes at `cur_in` (42_signed_varint.md R92, R93; 30_encoding.md R54,
R56): the pattern they assemble to, negative zero, magnitudes out of range, dropped bits and the bound included. `len` is not more than
the true length (R120). -/
def Obligations.DecsReadsTheValue : Prop :=
  ∀ (s : State) (f : Byte) (gs : List Byte), s.params.wf → s.lenHonest → StandsAt s.seq s.req.curIn (f :: gs) →
    (if f.getLsbD 6 then GroupRun (groupsS s.params.w) gs else gs = []) →
    s.req.curIn + (1 + gs.length) ≤ s.req.len →
    ∃ t, exec .decs s = .next t ∧ OnlyMovesCursorTo s t (s.req.curIn + (1 + gs.length)) ∧
      Decoded t (signedValue s.params.w f gs) (s.req.curIn + (1 + gs.length)) (1 + gs.length)

/-- 42_signed_varint.md R94: exactly when DECS answers TruncatedInput, and what it leaves. -/
def Obligations.DecsTruncatedExactly : Prop :=
  ∀ s : State, s.params.wf → s.seq.wf → s.lenHonest →
    ((∃ t, exec .decs s = .next t ∧ Answers t fun p => p.err = 1#2) ↔
      s.req.len ≤ s.req.curIn ∨
        ((∃ f, s.seq.read s.req.curIn = some f ∧ f.getLsbD 6 = true) ∧
          AllFlagged s.seq (s.req.curIn + 1) s.req.len ∧
          s.req.len - (s.req.curIn + 1) < groupsS s.params.w)) ∧
    ∀ t, exec .decs s = .next t → (Answers t fun p => p.err = 1#2) → FailsWith s t 1#2

/-- 43_generic_dispatch.md R99: DEC.s is DECU for `s` = 0 and DECS for `s` = 1, the error included; it always answers
where `len` is not more than the true length. -/
def Obligations.DecGenFollowsDeclaredSignedness : Prop :=
  (∀ s : Bool, decodeOp (if s then 0b1011#4 else 0b1010#4) = .ok (Instr.decGen s).expand) ∧
  (∀ s : State, exec (.decGen false) s = exec .decu s ∧ exec (.decGen true) s = exec .decs s) ∧
  (∀ (sgn : Bool) (s : State), s.seq.wf → s.lenHonest →
    ∃ t, exec (.decGen sgn) s = .next t ∧ SameInputs s t ∧ SameBytes s t) ∧
  decS 8 (Memory.ofBytes [0x81#8]) 1 0 = .ok (0xFF, 1) ∧ decU 8 (Memory.ofBytes [0x81#8]) 1 0 = .error .truncated

/-- The stop of a decode, exactly: DECU, DECS and DEC.s are refused if and only if `len` is larger than the true length,
whatever the bytes and the cursor are (70_reset_and_hazards.md R120, U10 "refuse"; that it is turned away at the decode
is the model's choice, entry 5). -/
def Obligations.DecodeRefusedExactlyForTooLargeLen : Prop :=
  ∀ (s : State) (sgn : Bool), s.seq.wf →
    (exec .decu s = .refused .lenBeyondSequence ↔ s.seq.length < s.req.len) ∧
    (exec .decs s = .refused .lenBeyondSequence ↔ s.seq.length < s.req.len) ∧
    (exec (.decGen sgn) s = .refused .lenBeyondSequence ↔ s.seq.length < s.req.len)

/-- 30_encoding.md R60: with enough bytes present a decoder never rejects its input, whatever the 256 byte values are. -/
def Obligations.DecodersNeverRejectContent : Prop :=
  ∀ (s : State) (sgn : Bool), s.params.wf → s.seq.wf → s.lenHonest →
    s.req.curIn + maxLen s.params.w sgn ≤ s.req.len →
    ∃ t, exec (.decGen sgn) s = .next t ∧ Answers t fun p => p.err = 0#2

/-- 10_state.md R26, the OK case: the decode consumes at least one byte, the cursor is one past the last, `cur_out` says
so, and it is at most `len`. -/
def Obligations.DecodeLeavesCursorPastLastByte : Prop :=
  ∀ (i : Instr) (s t : State), s.params.wf → i.isDecode = true → exec i s = .next t →
    (Answers t fun p => p.err = 0#2) →
    Answers t fun p => 1 ≤ p.nbytes ∧ p.curOut = s.req.curIn + p.nbytes ∧ t.cursor = p.curOut ∧ p.curOut ≤ s.req.len

/-- 20_memory.md R49: a decode depends on no byte but those it consumes: with other bytes everywhere else, and any other
honest `len` that still covers them, it gives the same answer. -/
def Obligations.DecodeReadsOnlyItsSpan : Prop :=
  ∀ (i : Instr) (s t s' : State) (p : Response), i.isDecode = true →
    exec i s = .next t → t.resp = some p → p.err = 0#2 →
    s'.params = s.params → s'.req.curIn = s.req.curIn → p.curOut ≤ s'.req.len → s'.lenHonest →
    (∀ a, s.req.curIn ≤ a → a < p.curOut → s'.seq.read a = s.seq.read a) →
    ∃ t', exec i s' = .next t' ∧ SameAnswer t t' ∧ t'.cursor = t.cursor

/-- 70_reset_and_hazards.md R120, first half: a `len` smaller than the true length is a decode of the sequence cut to
`len` bytes. It equates whole responses, the ports that the spec leaves unspecified (R23, R106) among them: for those it
rests on the model's free values, which are the same in both because the count is (entry 9). -/
def Obligations.ShorterLenIsTheCutSequence : Prop :=
  ∀ (i : Instr) (s t : State), i.isDecode = true → s.seq.wf → s.lenHonest → exec i s = .next t →
    ∃ t', exec i { s with seq := Memory.ofBytes (s.seq.bytes.take s.req.len) } = .next t' ∧
      t'.resp = t.resp ∧ t'.cursor = t.cursor ∧ SameInputs t t'

/-- 20_memory.md R42: a decode repeated with the same sequence, `len` and `cur_in` gives the same answer. -/
def Obligations.RepeatedDecodeGivesSameAnswer : Prop :=
  ∀ (i : Instr) (s t : State), i.isDecode = true → exec i s = .next t →
    ∃ u, exec i t = .next u ∧ SameAnswer t u ∧ u.cursor = t.cursor ∧ SameBytes t u

/-- 60_exceptions.md R111: after TruncatedInput, the same decode issued again once bytes have been appended gives what it
would have given had the bytes been there from the start. -/
def Obligations.RecoveryAfterTruncation : Prop :=
  ∀ (i : Instr) (s t u : State) (extra : List Byte), i.isDecode = true →
    exec i s = .next t → (Answers t fun p => p.err = 1#2) → exec i (grown s extra) = .next u →
    ∃ u', exec i (grown t extra) = .next u' ∧ SameAnswer u u' ∧ u'.cursor = u.cursor ∧ SameBytes u u'

/-- 41_unsigned_varint.md R81: an OK DECU is lossy exactly when the consumed groups carry a bit at `W` or above, or end
with the flag still set. -/
def Obligations.LossyExactlyWhenBitsAreLost : Prop :=
  ∀ (s : State) (bs : List Byte), s.params.wf → StandsAt s.seq s.req.curIn bs → GroupRun (groupsU s.params.w) bs →
    (lossyU s.params.w s.seq s.req.curIn = true ↔
      2 ^ s.params.w ≤ orGroups 0 bs ∨ ∃ b, bs.getLast? = some b ∧ b.getLsbD 7 = true)

/-! ## Round trips -/

/-- 41_unsigned_varint.md R83: what ENCU wrote, DECU reads back, wherever it stands, and consumes exactly. -/
def Obligations.UnsignedRoundTrip : Prop :=
  ∀ (s : State) (v : Nat) (before after : List Byte), s.params.wf → v < 2 ^ s.params.w →
    s.seq = Memory.ofBytes (before ++ encU v ++ after) → s.req.curIn = before.length → s.req.len = s.seq.length →
    ∃ t, exec .decu s = .next t ∧ OnlyMovesCursorTo s t (before.length + (encU v).length) ∧
      Decoded t v (before.length + (encU v).length) (encU v).length

/-- 42_signed_varint.md R95: what ENCS wrote, DECS reads back, zero, the minimum and the maximum included. -/
def Obligations.SignedRoundTrip : Prop :=
  ∀ (s : State) (v : Int) (before after : List Byte), s.params.wf →
    -2 ^ (s.params.w - 1) ≤ v → v < 2 ^ (s.params.w - 1) →
    s.seq = Memory.ofBytes (before ++ encS s.params.w (bitsW s.params.w v) ++ after) →
    s.req.curIn = before.length → s.req.len = s.seq.length →
    ∃ t, exec .decs s = .next t ∧
      OnlyMovesCursorTo s t (before.length + (encS s.params.w (bitsW s.params.w v)).length) ∧
      Decoded t (bitsW s.params.w v) (before.length + (encS s.params.w (bitsW s.params.w v)).length)
        (encS s.params.w (bitsW s.params.w v)).length

/-- 41_unsigned_varint.md R84, for any number of values of either signedness: encoded back to back by one request each
and decoded in order with the advancing cursor, each decode gives its value and consumes exactly its own bytes. -/
def Obligations.BackToBackValuesDecodeInOrder : Prop :=
  ∀ (s : State) (xs : List (Bool × Nat)) (rest : List Input), s.params.wf → s.seq.wf →
    (∀ x ∈ xs, x.2 < 2 ^ s.params.w) → s.roomFor (encodeAll s.params.w xs).length →
    s.cursor = s.seq.length → s.pending = xs.map encodeRequest ++ xs.map decodeRequest ++ rest →
    ∀ (k : Nat) (x : Bool × Nat), xs[k]? = some x →
      ∃ t, Sys2Proof.core.run (xs.length + (k + 1)) s = .next t ∧
        t.cursor = s.seq.length + (encodeAll s.params.w (xs.take (k + 1))).length ∧
        t.seq.bytes = s.seq.bytes ++ encodeAll s.params.w xs ∧
        Decoded t x.2 t.cursor (encBytes s.params.w x.1 x.2).length

/-- The other direction (41_unsigned_varint.md R84, 42_signed_varint.md R95): re-encoding a decoded value gives back the
consumed bytes exactly when they are a canonical encoding. -/
def Obligations.ReencodingReproducesExactlyCanonicalBytes : Prop :=
  ∀ (sgn : Bool) (s t : State) (p : Response) (bs : List Byte), s.params.wf → s.seq.wf → s.lenHonest →
    exec (.decGen sgn) s = .next t → t.resp = some p → p.err = 0#2 →
    bs.length = p.nbytes → StandsAt s.seq s.req.curIn bs →
    (encBytes s.params.w sgn p.valOut = bs ↔ ∃ u, u < 2 ^ s.params.w ∧ bs = encBytes s.params.w sgn u)

/-! ## Rules about all operations -/

/-- 60_exceptions.md R110: an operation that ends with an error has had no effect on the sequence or on the caller's
cursor, and `cur_out` is `cur_in`. -/
def Obligations.ErrorResponseKeepsEverything : Prop :=
  ∀ (i : Instr) (s t : State) (p : Response), exec i s = .next t → t.resp = some p → p.err ≠ 0#2 →
    OnlyResponds s t ∧ p.curOut = s.req.curIn

/-- 60_exceptions.md R108 (and the codes of R107): TruncatedInput only from the decoders, IllegalOp only from a
primitive that is not exposed, the code 3 never; a reserved code always answers IllegalOp. -/
def Obligations.WhichOperationRaisesWhat : Prop :=
  (∀ (i : Instr) (s t : State) (p : Response), exec i s = .next t → t.resp = some p →
    (p.err = 1#2 → i.isDecode = true) ∧ (p.err = 2#2 → i.isBitop = true ∧ s.params.bitopsExposed = false) ∧
    p.err ≠ 3#2) ∧
  ∀ (s : State) (r : Request) (rest : List Input), s.pending = .request r :: rest → ReservedCode s.params r.op →
    ∃ t, step s = .next t ∧ Answers t fun p => p.err = 2#2

/-- 10_state.md R28 and R27: a decode does not change the sequence, an encode does not change the cursor, and no
operation changes a byte that was there. -/
def Obligations.OnlyEncodesAppendOnlyDecodesMoveCursor : Prop :=
  ∀ (i : Instr) (s t : State), s.seq.wf → exec i s = .next t →
    SameInputs s t ∧ (∀ a, a < s.seq.length → t.seq.read a = s.seq.read a) ∧
    (i.isEncode = false → SameBytes s t) ∧ (i.isDecode = false → t.cursor = s.cursor)

/-- 10_state.md R27: what an encode appends does not depend on the bytes already there, on their number or on the
cursor. -/
def Obligations.EncodeIgnoresTheSequence : Prop :=
  ∀ (i : Instr) (s s' t t' : State), i.isEncode = true → s'.params = s.params → s'.req.valIn = s.req.valIn →
    exec i s = .next t → exec i s' = .next t' →
    ∃ e : List Byte, t.seq = s.seq.appendAll e ∧ t'.seq = s'.seq.appendAll e ∧ Encoded t e.length ∧ Encoded t' e.length

/-- 10_state.md R32: an operand that the operation does not use changes nothing: with any other request ports that agree
on the operands it uses, the operation gives the same state but for those ports. R32 says it of the result, the bytes, the
cursor and the error; that the response ports left unspecified (U3) agree too rests on the model's free values, which are
the same in both because the count is (entry 9). A primitive that is not exposed is in `HiddenPrimitivesIgnoreOperands`. -/
def Obligations.UnusedOperandsAreIgnored : Prop :=
  ∀ (i : Instr) (s t : State) (q : Ports), exec i s = .next t →
    (i.isBitop = true → s.params.bitopsExposed = true ∧ q.unitIn = s.req.unitIn ∧ q.pos = s.req.pos) →
    (i.isEncode = true → q.valIn = s.req.valIn) →
    (i.isDecode = true → q.curIn = s.req.curIn ∧ q.len = s.req.len) →
    exec i { s with req := q } = .next { t with req := q }

/-- Every operation ends with a response (70_reset_and_hazards.md R126): where the caller keeps its obligations on `len`
(R120) and on room (R123), no operation stops. -/
def Obligations.EveryOperationEnds : Prop :=
  ∀ (i : Instr) (s : State), s.Inv → s.lenHonest → s.roomy → ∃ t p, exec i s = .next t ∧ t.resp = some p

/-- 20_memory.md R41, in byte counts: how many bytes an OK encode appends and an OK decode consumes. -/
def Obligations.ByteCountsAreBounded : Prop :=
  ∀ (i : Instr) (s t : State) (p : Response), s.params.wf → s.req.valIn < 2 ^ s.params.w →
    exec i s = .next t → t.resp = some p → p.err = 0#2 →
    (i = .encu ∨ i = .decu → 1 ≤ p.nbytes ∧ p.nbytes ≤ groupsU s.params.w) ∧
    (i = .encs ∨ i = .decs → 1 ≤ p.nbytes ∧ p.nbytes ≤ 1 + groupsS s.params.w) ∧
    (i.isEncode = true → t.seq.length = s.seq.length + p.nbytes) ∧
    (i.isDecode = true → t.cursor = s.req.curIn + p.nbytes)

/-- 00_scope.md R11: the derived constants, the bound `ceil` means, and the values the spec lists. -/
def Obligations.DerivedConstants : Prop :=
  (∀ w, 0 < w → w ≤ 7 * groupsU w ∧ 7 * (groupsU w - 1) < w ∧ maxLenU w = groupsU w) ∧
  (∀ w, 6 < w → w - 6 ≤ 7 * groupsS w ∧ 7 * (groupsS w - 1) < w - 6 ∧ maxLenS w = 1 + groupsS w) ∧
  [8, 16, 32, 64].map (fun w => (groupsU w, groupsS w, maxLenS w)) = [(2, 1, 2), (3, 2, 3), (5, 4, 5), (10, 9, 10)]

/-- 10_state.md R32 for a bit-group primitive that is not exposed, whose code is reserved (30_encoding.md R66): no operand
but `cur_in`, which its error response returns (60_exceptions.md R106), changes anything. As in `UnusedOperandsAreIgnored`,
for the unspecified response ports it rests on entry 9. -/
def Obligations.HiddenPrimitivesIgnoreOperands : Prop :=
  ∀ (i : Instr) (s : State) (q : Ports), i.isBitop = true → s.params.bitopsExposed = false → q.curIn = s.req.curIn →
    ∃ t, exec i s = .next t ∧ FailsWith s t 2#2 ∧ exec i { s with req := q } = .next { t with req := q }
end

