-- ==== Sys2Proof/Laws/State.lean ====
section
/-! SUPPORT. One lemma per field per update of the state, and what the response ports carry for each result. -/

namespace Sys2Proof.Machine

section Fields
variable (s : State) (r : Result) (e : ErrKind) (q : Request) (bytes : List Byte) (c : Nat)

@[simp] theorem State.respond_params : (s.respond r).params = s.params := rfl
@[simp] theorem State.respond_seq : (s.respond r).seq = s.seq := rfl
@[simp] theorem State.respond_cursor : (s.respond r).cursor = s.cursor := rfl
@[simp] theorem State.respond_pending : (s.respond r).pending = s.pending := rfl
@[simp] theorem State.respond_req : (s.respond r).req = s.req := rfl
@[simp] theorem State.respond_resp :
    (s.respond r).resp = some (drivePorts s.params s.freeCount s.req.curIn r) := rfl
@[simp] theorem State.respond_freeCount : (s.respond r).freeCount = s.freeCount + 1 := rfl

theorem State.raise_eq : s.raise e = s.respond (.error e) := rfl
@[simp] theorem State.raise_params : (s.raise e).params = s.params := rfl
@[simp] theorem State.raise_seq : (s.raise e).seq = s.seq := rfl
@[simp] theorem State.raise_cursor : (s.raise e).cursor = s.cursor := rfl
@[simp] theorem State.raise_pending : (s.raise e).pending = s.pending := rfl
@[simp] theorem State.raise_req : (s.raise e).req = s.req := rfl
@[simp] theorem State.raise_resp :
    (s.raise e).resp = some (drivePorts s.params s.freeCount s.req.curIn (.error e)) := rfl

@[simp] theorem State.sample_params : (s.sample q).params = s.params := rfl
@[simp] theorem State.sample_seq : (s.sample q).seq = s.seq := rfl
@[simp] theorem State.sample_cursor : (s.sample q).cursor = s.cursor := rfl
@[simp] theorem State.sample_pending : (s.sample q).pending = s.pending := rfl
@[simp] theorem State.sample_req : (s.sample q).req = samplePorts s.seq s.cursor q := rfl
@[simp] theorem State.sample_resp : (s.sample q).resp = s.resp := rfl
@[simp] theorem State.sample_freeCount : (s.sample q).freeCount = s.freeCount := rfl

@[simp] theorem State.blockReset_params : s.blockReset.params = s.params := rfl
@[simp] theorem State.blockReset_seq : s.blockReset.seq = s.seq := rfl
@[simp] theorem State.blockReset_cursor : s.blockReset.cursor = s.cursor := rfl
@[simp] theorem State.blockReset_pending : s.blockReset.pending = s.pending := rfl
@[simp] theorem State.blockReset_req : s.blockReset.req = s.req := rfl
@[simp] theorem State.blockReset_resp : s.blockReset.resp = none := rfl
@[simp] theorem State.blockReset_freeCount : s.blockReset.freeCount = s.freeCount := rfl

@[simp] theorem State.present_params : (s.present bytes c).params = s.params := rfl
@[simp] theorem State.present_seq : (s.present bytes c).seq = Memory.ofBytes bytes := rfl
@[simp] theorem State.present_cursor : (s.present bytes c).cursor = c := rfl
@[simp] theorem State.present_pending : (s.present bytes c).pending = s.pending := rfl
@[simp] theorem State.present_req : (s.present bytes c).req = s.req := rfl
@[simp] theorem State.present_resp : (s.present bytes c).resp = s.resp := rfl
@[simp] theorem State.present_freeCount : (s.present bytes c).freeCount = s.freeCount := rfl

end Fields

section SampledPorts
variable (m : Memory) (c : Nat) (r : Request)

@[simp] theorem samplePorts_op : (samplePorts m c r).op = r.op := rfl
@[simp] theorem samplePorts_valIn : (samplePorts m c r).valIn = r.valIn := rfl
@[simp] theorem samplePorts_unitIn : (samplePorts m c r).unitIn = r.unitIn := rfl
@[simp] theorem samplePorts_pos : (samplePorts m c r).pos = r.pos := rfl
@[simp] theorem samplePorts_curIn : (samplePorts m c r).curIn = r.curIn.getD c := rfl
@[simp] theorem samplePorts_len : (samplePorts m c r).len = r.len.getD m.length := rfl

end SampledPorts

section DrivenPorts
variable (p : Params) (k c : Nat)

@[simp] theorem drivePorts_bit_err (b : BitVec 1) : (drivePorts p k c (.bit b)).err = 0#2 := rfl
@[simp] theorem drivePorts_bit_bitOut (b : BitVec 1) : (drivePorts p k c (.bit b)).bitOut = b := rfl
@[simp] theorem drivePorts_unit_err (u : Byte) : (drivePorts p k c (.unit u)).err = 0#2 := rfl
@[simp] theorem drivePorts_unit_unitOut (u : Byte) : (drivePorts p k c (.unit u)).unitOut = u := rfl
@[simp] theorem drivePorts_encoded_err (n : Nat) : (drivePorts p k c (.encoded n)).err = 0#2 := rfl
@[simp] theorem drivePorts_encoded_nbytes (n : Nat) : (drivePorts p k c (.encoded n)).nbytes = n := rfl
@[simp] theorem drivePorts_decoded_err (v d n : Nat) : (drivePorts p k c (.decoded v d n)).err = 0#2 := rfl
@[simp] theorem drivePorts_decoded_valOut (v d n : Nat) : (drivePorts p k c (.decoded v d n)).valOut = v := rfl
@[simp] theorem drivePorts_decoded_curOut (v d n : Nat) : (drivePorts p k c (.decoded v d n)).curOut = d := rfl
@[simp] theorem drivePorts_decoded_nbytes (v d n : Nat) : (drivePorts p k c (.decoded v d n)).nbytes = n := rfl
@[simp] theorem drivePorts_error_err (e : ErrKind) : (drivePorts p k c (.error e)).err = e.code := rfl
@[simp] theorem drivePorts_error_curOut (e : ErrKind) : (drivePorts p k c (.error e)).curOut = c := rfl

/-- The free values fit their ports. -/
theorem freeResponse_bounds :
    (freeResponse p k).valOut < 2 ^ p.w ∧ (freeResponse p k).curOut < 2 ^ p.a ∧
      (freeResponse p k).nbytes < 2 ^ nbytesWidth p.w := by
  refine ⟨?_, ?_, ?_⟩ <;> exact Nat.mod_lt _ (by positivity)

end DrivenPorts

@[simp] theorem ErrKind.code_truncatedInput : ErrKind.truncatedInput.code = 1#2 := rfl
@[simp] theorem ErrKind.code_illegalOp : ErrKind.illegalOp.code = 2#2 := rfl

end Sys2Proof.Machine
end

