-- ==== Sys2Proof/Laws/Memory.lean ====
section
/-! SUPPORT. The byte sequence: every operation keeps the canonical form, a byte appended is read back, and no other
index changes. -/

namespace Sys2Proof.Machine

variable (m : Memory) (b : Byte) (bs : List Byte)

@[simp] theorem Memory.bytes_length : m.bytes.length = m.length := by simp [Memory.bytes]

@[simp] theorem Memory.bytes_append : (m.append b).bytes = m.bytes ++ [b] := by
  simp [Memory.bytes, Memory.append]

@[simp] theorem Memory.length_append : (m.append b).length = m.length + 1 := by
  simp [Memory.append]

@[simp] theorem Memory.appendAll_nil : m.appendAll [] = m := rfl

theorem Memory.appendAll_cons : m.appendAll (b :: bs) = (m.append b).appendAll bs := rfl

@[simp] theorem Memory.bytes_appendAll : (m.appendAll bs).bytes = m.bytes ++ bs := by
  induction bs generalizing m with
  | nil => simp
  | cons b bs ih => simp [Memory.appendAll_cons, ih]

@[simp] theorem Memory.length_appendAll : (m.appendAll bs).length = m.length + bs.length := by
  rw [← Memory.bytes_length, Memory.bytes_appendAll]; simp

theorem Memory.appendAll_append (cs : List Byte) : m.appendAll (bs ++ cs) = (m.appendAll bs).appendAll cs := by
  induction bs generalizing m with
  | nil => rfl
  | cons b bs ih => simp [Memory.appendAll_cons, ih]

@[simp] theorem Memory.bytes_ofBytes : (Memory.ofBytes bs).bytes = bs :=
  Memory.bytes_appendAll [] bs

@[simp] theorem Memory.length_ofBytes : (Memory.ofBytes bs).length = bs.length := by simp [Memory.ofBytes]

/-- `Append` keeps the canonical form. -/
theorem Memory.wf_append (h : m.wf) : (m.append b).wf := by
  have hm : m.map Prod.fst = List.range m.length := h
  show (m ++ [(m.length, b)]).map Prod.fst = List.range (m ++ [(m.length, b)]).length
  simp [hm, List.range_succ]

theorem Memory.wf_appendAll (h : m.wf) : (m.appendAll bs).wf := by
  induction bs generalizing m with
  | nil => exact h
  | cons b bs ih => exact ih _ (Memory.wf_append m b h)

theorem Memory.wf_ofBytes : (Memory.ofBytes bs).wf := Memory.wf_appendAll [] bs rfl

/-- A list of pairs whose indexes run from `k` on is read by position. -/
theorem Memory.lookup_of_range (k : Nat) (h : m.map Prod.fst = List.range' k m.length) (i : Nat) :
    m.lookup (k + i) = (m[i]?).map Prod.snd := by
  induction m generalizing k i with
  | nil => rfl
  | cons c cs ih =>
    obtain ⟨a, v⟩ := c
    simp only [List.map_cons, List.length_cons, List.range'_succ, List.cons.injEq] at h
    obtain ⟨rfl, h⟩ := h
    cases i with
    | zero => simp
    | succ i =>
      have hne : (a + (i + 1) == a) = false := by simp
      rw [List.lookup_cons, hne, List.getElem?_cons_succ, ← ih (a + 1) h i, Nat.add_assoc, Nat.add_comm 1 i]

/-- In canonical form, reading an index is looking it up in the list of bytes. -/
theorem Memory.read_eq (h : m.wf) (i : Nat) : m.read i = m.bytes[i]? := by
  have hm : m.map Prod.fst = List.range m.length := h
  have := Memory.lookup_of_range m 0 (by rw [hm, List.range_eq_range']) i
  simpa [Memory.read, Memory.bytes] using this

/-- Two sequences in canonical form with the same bytes are the same. -/
theorem Memory.ext_of_bytes {m m' : Memory} (h : m.wf) (h' : m'.wf) (hb : m.bytes = m'.bytes) : m = m' := by
  have hl : m.length = m'.length := by rw [← Memory.bytes_length, ← Memory.bytes_length, hb]
  have hz (x : Memory) : (x.map Prod.fst).zip (x.map Prod.snd) = x := by
    rw [← List.unzip_fst, ← List.unzip_snd, List.zip_unzip]
  have hm : m.map Prod.fst = List.range m.length := h
  have hm' : m'.map Prod.fst = List.range m'.length := h'
  rw [← hz m, ← hz m', hm, hm', hl]
  exact congrArg _ hb

/-- A canonical sequence is the one that holds its bytes. -/
theorem Memory.ofBytes_bytes (h : m.wf) : Memory.ofBytes m.bytes = m :=
  Memory.ext_of_bytes (Memory.wf_ofBytes _) h (by simp)

theorem Memory.read_some_iff_lt (h : m.wf) (i : Nat) : (m.read i).isSome ↔ i < m.length := by
  rw [Memory.read_eq m h]; simp

/-- After appending, an old index reads as before. -/
theorem Memory.read_appendAll_old (h : m.wf) (i : Nat) (hi : i < m.length) :
    (m.appendAll bs).read i = m.read i := by
  rw [Memory.read_eq _ (Memory.wf_appendAll m bs h), Memory.read_eq m h, Memory.bytes_appendAll,
    List.getElem?_append_left (by simpa using hi)]

/-- After appending, the new bytes stand from the old length on. -/
theorem Memory.read_appendAll_new (h : m.wf) (j : Nat) : (m.appendAll bs).read (m.length + j) = bs[j]? := by
  rw [Memory.read_eq _ (Memory.wf_appendAll m bs h), Memory.bytes_appendAll,
    List.getElem?_append_right (by simp)]
  simp

/-- An index at or beyond the length holds no byte. -/
theorem Memory.read_beyond (h : m.wf) (i : Nat) (hi : m.length ≤ i) : m.read i = none := by
  rw [Memory.read_eq m h]; simpa using hi

/-- What `ByteRead` can do. -/
theorem byteRead_cases (len i : Nat) :
    (len ≤ i ∧ byteRead m len i = .error .truncated) ∨
    (i < len ∧ m.read i = none ∧ byteRead m len i = .error .absent) ∨
    ∃ b, i < len ∧ m.read i = some b ∧ byteRead m len i = .ok b := by
  unfold byteRead
  by_cases h : len ≤ i
  · exact .inl ⟨h, by simp [h]⟩
  · cases hr : m.read i with
    | none => exact .inr (.inl ⟨by omega, rfl, by simp [h]⟩)
    | some b => exact .inr (.inr ⟨b, by omega, rfl, by simp [h]⟩)

theorem byteRead_ok_iff (len i : Nat) : byteRead m len i = .ok b ↔ i < len ∧ m.read i = some b := by
  rcases byteRead_cases m len i with ⟨h, e⟩ | ⟨h, h', e⟩ | ⟨c, h, h', e⟩ <;> rw [e] <;> simp_all

theorem byteRead_truncated_iff (len i : Nat) : byteRead m len i = .error .truncated ↔ len ≤ i := by
  rcases byteRead_cases m len i with ⟨h, e⟩ | ⟨h, h', e⟩ | ⟨c, h, h', e⟩ <;> rw [e] <;> simp_all

theorem byteRead_absent_iff (len i : Nat) : byteRead m len i = .error .absent ↔ i < len ∧ m.read i = none := by
  rcases byteRead_cases m len i with ⟨h, e⟩ | ⟨h, h', e⟩ | ⟨c, h, h', e⟩ <;> rw [e] <;> simp_all

end Sys2Proof.Machine
end

