-- ==== Sys2Proof/Laws/Words.lean ====
section
/-! SUPPORT. The bits of wire bytes as numbers, and the arithmetic of 00_scope.md. -/

namespace Sys2Proof.Machine

/-- `BTST`'s function reads one bit. -/
theorem bitTest_eq (u : Byte) (p : Pos) : bitTest u p = BitVec.ofBool (u.getLsbD p.toNat) := by
  apply BitVec.eq_of_getLsbD_eq
  intro i hi
  obtain rfl : i = 0 := by omega
  simp [bitTest]

theorem groupFlag_eq (b : Byte) : groupFlag b = b.getLsbD 7 := by
  rw [groupFlag, bitTest_eq]
  cases h : b.getLsbD (7#3).toNat <;> simp_all

theorem signFlag_eq (b : Byte) : signFlag b = b.getLsbD 7 := by
  rw [signFlag, bitTest_eq]
  cases h : b.getLsbD (7#3).toNat <;> simp_all

theorem firstFlag_eq (b : Byte) : firstFlag b = b.getLsbD 6 := by
  rw [firstFlag, bitTest_eq]
  cases h : b.getLsbD (6#3).toNat <;> simp_all

theorem bitClear_seven (b : Byte) : bitClear b 7#3 = b &&& 0x7F#8 := by
  show b &&& (255#8 - (1#8 <<< (7#3).toNat)) = _
  rw [show (255#8 - (1#8 <<< (7#3).toNat)) = 0x7F#8 by decide]

theorem bitClear_six (b : Byte) : bitClear b 6#3 = b &&& 0xBF#8 := by
  show b &&& (255#8 - (1#8 <<< (6#3).toNat)) = _
  rw [show (255#8 - (1#8 <<< (6#3).toNat)) = 0xBF#8 by decide]

theorem bitSet_seven (b : Byte) : bitSet b 7#3 = b ||| 0x80#8 := by
  show b ||| (1#8 <<< (7#3).toNat) = _
  rw [show (1#8 <<< (7#3).toNat) = 0x80#8 by decide]

/-- The payload is the byte without bit 7. -/
theorem payload_eq (b : Byte) : payload b = b.toNat % 128 := by
  rw [payload, bitClear_seven, BitVec.toNat_and]
  exact Nat.and_two_pow_sub_one_eq_mod b.toNat 7

theorem payload_lt (b : Byte) : payload b < 128 := by rw [payload_eq]; omega

/-- The magnitude bits of a signed first byte are the byte without bits 7 and 6. -/
theorem firstBits_eq (b : Byte) : firstBits b = b.toNat % 64 := by
  rw [firstBits, bitClear_seven, bitClear_six, BitVec.and_assoc,
    show (0x7F#8 &&& 0xBF#8) = 0x3F#8 by decide, BitVec.toNat_and]
  exact Nat.and_two_pow_sub_one_eq_mod b.toNat 6

theorem firstBits_lt (b : Byte) : firstBits b < 64 := by rw [firstBits_eq]; omega

/-- Bit 7 as a number. -/
theorem getLsbD_seven_iff (b : Byte) : b.getLsbD 7 = true ↔ 128 ≤ b.toNat := by
  have hb : b.toNat < 256 := b.isLt
  rw [BitVec.getLsbD, Nat.testBit_eq_decide_div_mod_eq]
  simp only [decide_eq_true_eq]
  omega

/-- Bit 6 as a number. -/
theorem getLsbD_six_iff (b : Byte) : b.getLsbD 6 = true ↔ 64 ≤ b.toNat % 128 := by
  have hb : b.toNat < 256 := b.isLt
  rw [BitVec.getLsbD, Nat.testBit_eq_decide_div_mod_eq]
  simp only [decide_eq_true_eq]
  omega

/-- OR of bits that do not overlap is a sum. -/
theorem or_low_eq_add (k a b : Nat) (h : b < 2 ^ k) : 2 ^ k * a ||| b = 2 ^ k * a + b :=
  (Nat.two_pow_add_eq_or_of_lt h a).symm

/-- A group byte as a number. -/
theorem groupByte_toNat (more : Bool) (v : Nat) :
    (groupByte more v).toNat = v % 128 + if more then 128 else 0 := by
  have hand : v &&& 0x7F = v % 128 := Nat.and_two_pow_sub_one_eq_mod v 7
  cases more with
  | false => simp [groupByte, hand]; omega
  | true =>
    have h : 0x80 ||| (v % 128) = 0x80 + v % 128 := or_low_eq_add 7 1 (v % 128) (by omega)
    simp only [groupByte, if_true, bitSet_seven, hand, BitVec.toNat_or, BitVec.toNat_ofNat]
    rw [Nat.mod_eq_of_lt (show v % 128 < 2 ^ 8 by omega), Nat.or_comm]
    simpa [Nat.add_comm] using h

@[simp] theorem groupFlag_groupByte (more : Bool) (v : Nat) : groupFlag (groupByte more v) = more := by
  rw [groupFlag_eq, Bool.eq_iff_iff, getLsbD_seven_iff, groupByte_toNat]
  cases more <;> simp; omega

@[simp] theorem payload_groupByte (more : Bool) (v : Nat) : payload (groupByte more v) = v % 128 := by
  rw [payload_eq, groupByte_toNat]
  cases more <;> simp

/-- A signed first byte as a number. -/
theorem firstByte_toNat (sign more : Bool) (low : Nat) :
    (firstByte sign more low).toNat = (if sign then 128 else 0) + (if more then 64 else 0) + low % 64 := by
  have hand : low &&& 0x3F = low % 64 := Nat.and_two_pow_sub_one_eq_mod low 6
  have h1 : 64 ||| low % 64 = 64 + low % 64 := or_low_eq_add 6 1 (low % 64) (by omega)
  have h2 : 128 ||| low % 64 = 128 + low % 64 := or_low_eq_add 6 2 (low % 64) (by omega)
  have h3 : 192 ||| low % 64 = 192 + low % 64 := or_low_eq_add 6 3 (low % 64) (by omega)
  simp only [firstByte, hand, BitVec.toNat_ofNat]
  cases sign <;> cases more <;> simp [h1, h2, h3] <;> omega

@[simp] theorem signFlag_firstByte (sign more : Bool) (low : Nat) : signFlag (firstByte sign more low) = sign := by
  rw [signFlag_eq, Bool.eq_iff_iff, getLsbD_seven_iff, firstByte_toNat]
  cases sign <;> cases more <;> simp <;> omega

@[simp] theorem firstFlag_firstByte (sign more : Bool) (low : Nat) : firstFlag (firstByte sign more low) = more := by
  rw [firstFlag_eq, Bool.eq_iff_iff, getLsbD_six_iff, firstByte_toNat]
  cases sign <;> cases more <;> simp <;> omega

@[simp] theorem firstBits_firstByte (sign more : Bool) (low : Nat) : firstBits (firstByte sign more low) = low % 64 := by
  rw [firstBits_eq, firstByte_toNat]
  cases sign <;> cases more <;> simp <;> omega

@[simp] theorem bitLen_zero : bitLen 0 = 0 := rfl

/-- `v` has no bit at `bitLen v` or above. -/
theorem bitLen_le_iff (v n : Nat) : bitLen v ≤ n ↔ v < 2 ^ n := by
  unfold bitLen
  split
  · subst v; simp
  · rename_i h
    rw [Nat.succ_le_iff, Nat.log2_lt h]

theorem lt_two_pow_bitLen (v : Nat) : v < 2 ^ bitLen v := (bitLen_le_iff v _).1 le_rfl

/-- A shift right takes that many bits off. -/
theorem bitLen_shiftRight (v k : Nat) : bitLen (v >>> k) = bitLen v - k := by
  apply le_antisymm
  · rw [bitLen_le_iff, Nat.shiftRight_eq_div_pow, Nat.div_lt_iff_lt_mul (by positivity), ← pow_add, ← bitLen_le_iff]
    omega
  · have := (bitLen_le_iff (v >>> k) (bitLen (v >>> k))).1 le_rfl
    rw [Nat.shiftRight_eq_div_pow, Nat.div_lt_iff_lt_mul (by positivity), ← pow_add, ← bitLen_le_iff] at this
    rw [Nat.shiftRight_eq_div_pow]
    omega

theorem truncW_lt (w a : Nat) : truncW w a < 2 ^ w := Nat.mod_lt _ (by positivity)
theorem negW_lt (w a : Nat) : negW w a < 2 ^ w := Nat.mod_lt _ (by positivity)

/-- Negating twice gives the pattern back. -/
theorem negW_negW (w u : Nat) (h : u < 2 ^ w) : negW w (negW w u) = u := by
  unfold negW
  rcases Nat.eq_zero_or_pos u with rfl | hu
  · simp
  · rw [Nat.mod_eq_of_lt (show 2 ^ w - u < 2 ^ w by omega), Nat.mod_eq_of_lt (by omega)]
    omega

end Sys2Proof.Machine
end

