-- ==== Sys2Proof/Laws/Codec.lean ====
section
/-! SUPPORT. The codec functions: `enc_u` by its recursion, and what `dec_groups` can do. -/

namespace Sys2Proof.Machine

theorem encGroups_eq (fuel v : Nat) (h : bitLen v ≤ fuel) : encGroups fuel v = encU v := by
  suffices H : ∀ f g w, bitLen w ≤ f → bitLen w ≤ g → encGroups f w = encGroups g w from H _ _ v h le_rfl
  intro f
  induction f with
  | zero =>
    intro g w hf _
    have hw : w = 0 := by simpa using (bitLen_le_iff w 0).1 hf
    subst hw
    cases g <;> simp [encGroups]
  | succ f ih =>
    intro g w hf hg
    cases g with
    | zero =>
      have hw : w = 0 := by simpa using (bitLen_le_iff w 0).1 hg
      subst hw; simp [encGroups]
    | succ g =>
      simp only [encGroups]
      split
      · rw [ih g (w >>> 7) (by rw [bitLen_shiftRight]; omega) (by rw [bitLen_shiftRight]; omega)]
      · rfl

/-- `enc_u` by its recursion: the last group, or a group with its flag and the encoding of the rest (R76). -/
theorem encU_eq (v : Nat) :
    encU v = if v < 128 then [groupByte false v] else groupByte true v :: encU (v >>> 7) := by
  have hs : v >>> 7 = v / 128 := Nat.shiftRight_eq_div_pow v 7
  rcases Nat.eq_zero_or_pos v with rfl | hv
  · simp [encU, encGroups]
  · have hb : bitLen v = Nat.log2 v + 1 := if_neg (by omega)
    rw [encU, hb, encGroups, encGroups_eq _ _ (by rw [bitLen_shiftRight]; omega), hs]
    by_cases h : v < 128
    · simp [h, Nat.div_eq_of_lt h]
    · simp [h]

theorem encU_of_lt {v : Nat} (h : v < 128) : encU v = [groupByte false v] := by rw [encU_eq, if_pos h]

theorem encU_of_ge {v : Nat} (h : 128 ≤ v) : encU v = groupByte true v :: encU (v / 128) := by
  rw [encU_eq, if_neg (by omega), Nat.shiftRight_eq_div_pow]

theorem encU_ne_nil (v : Nat) : encU v ≠ [] := by rw [encU_eq]; split <;> simp

theorem encU_length_pos (v : Nat) : 1 ≤ (encU v).length := List.length_pos_of_ne_nil (encU_ne_nil v)

theorem encS_ne_nil (w u : Nat) : encS w u ≠ [] := by unfold encS; dsimp only; split <;> simp

section DecGroups
variable {w : Nat} {m : Memory} {len i0 sh : Nat}

theorem decGroupsFrom_zero (i r : Nat) : decGroupsFrom w m len i0 sh 0 i r = .ok (r, i) := rfl

theorem decGroupsFrom_error {left i r : Nat} {e : ReadStop} (h : byteRead m len (i0 + i) = .error e) :
    decGroupsFrom w m len i0 sh (left + 1) i r = .error e := by simp [decGroupsFrom, h]

theorem decGroupsFrom_last {left i r : Nat} {b : Byte} (h : byteRead m len (i0 + i) = .ok b) (hb : groupFlag b = false) :
    decGroupsFrom w m len i0 sh (left + 1) i r = .ok (r ||| truncW w (payload b <<< (sh + 7 * i)), i + 1) := by
  simp [decGroupsFrom, h, hb]

theorem decGroupsFrom_more {left i r : Nat} {b : Byte} (h : byteRead m len (i0 + i) = .ok b) (hb : groupFlag b = true) :
    decGroupsFrom w m len i0 sh (left + 1) i r =
      decGroupsFrom w m len i0 sh left (i + 1) (r ||| truncW w (payload b <<< (sh + 7 * i))) := by
  simp [decGroupsFrom, h, hb]

/-- What `dec_groups` can do: it reads `k` bytes with the flag set and then ends at the bound, at a byte with the flag
clear, or at a byte that it cannot read. -/
theorem decGroupsFrom_cases (left i r : Nat) :
    ∃ k, k ≤ left ∧ (∀ j, j < k → ∃ b, byteRead m len (i0 + (i + j)) = .ok b ∧ groupFlag b = true) ∧
      ((k = left ∧ ∃ v, decGroupsFrom w m len i0 sh left i r = .ok (v, i + k)) ∨
       (k < left ∧ ∃ b v, byteRead m len (i0 + (i + k)) = .ok b ∧ groupFlag b = false ∧
          decGroupsFrom w m len i0 sh left i r = .ok (v, i + k + 1)) ∨
       (k < left ∧ ∃ e, byteRead m len (i0 + (i + k)) = .error e ∧
          decGroupsFrom w m len i0 sh left i r = .error e)) := by
  induction left generalizing i r with
  | zero => exact ⟨0, le_rfl, by simp, .inl ⟨rfl, r, rfl⟩⟩
  | succ left ih =>
    cases hr : byteRead m len (i0 + i) with
    | error e => exact ⟨0, by omega, by simp, .inr (.inr ⟨by omega, e, hr, decGroupsFrom_error hr⟩)⟩
    | ok b =>
      cases hb : groupFlag b with
      | false => exact ⟨0, by omega, by simp, .inr (.inl ⟨by omega, b, _, hr, hb, decGroupsFrom_last hr hb⟩)⟩
      | true =>
        obtain ⟨k, hk, hall, hend⟩ := ih (i + 1) (r ||| truncW w (payload b <<< (sh + 7 * i)))
        refine ⟨k + 1, by omega, ?_, ?_⟩
        · intro j hj
          cases j with
          | zero => exact ⟨b, hr, hb⟩
          | succ j => rw [show i + (j + 1) = i + 1 + j by omega]; exact hall j (by omega)
        · rw [decGroupsFrom_more hr hb, show i + (k + 1) = i + 1 + k by omega]
          rcases hend with ⟨h, h'⟩ | ⟨h, h'⟩ | ⟨h, h'⟩
          · exact .inl ⟨by omega, h'⟩
          · exact .inr (.inl ⟨by omega, h'⟩)
          · exact .inr (.inr ⟨by omega, h'⟩)

/-- What a decoded pattern is never: wider than `W` bits. -/
theorem decGroupsFrom_lt {left i r v n : Nat} (hr : r < 2 ^ w) (h : decGroupsFrom w m len i0 sh left i r = .ok (v, n)) :
    v < 2 ^ w := by
  induction left generalizing i r with
  | zero => simp only [decGroupsFrom, Except.ok.injEq, Prod.mk.injEq] at h; omega
  | succ left ih =>
    have hor (b : Byte) : r ||| truncW w (payload b <<< (sh + 7 * i)) < 2 ^ w := Nat.or_lt_two_pow hr (truncW_lt _ _)
    cases hb : byteRead m len (i0 + i) with
    | error e => rw [decGroupsFrom_error hb] at h; cases h
    | ok b =>
      cases hf : groupFlag b with
      | false =>
        rw [decGroupsFrom_last hb hf] at h
        simp only [Except.ok.injEq, Prod.mk.injEq] at h
        obtain ⟨rfl, rfl⟩ := h; exact hor b
      | true => rw [decGroupsFrom_more hb hf] at h; exact ih (hor b) h

/-- `dec_groups` depends on the bytes it consumed only. -/
theorem decGroupsFrom_congr {m' : Memory} {len' left i r v n : Nat}
    (h : decGroupsFrom w m len i0 sh left i r = .ok (v, n))
    (hm : ∀ a, i0 + i ≤ a → a < i0 + n → byteRead m' len' a = byteRead m len a) :
    decGroupsFrom w m' len' i0 sh left i r = .ok (v, n) := by
  induction left generalizing i r with
  | zero => exact h
  | succ left ih =>
    have hn : i < n := by
      obtain ⟨k, hk, -, ⟨h1, v', h2⟩ | ⟨h1, b, v', -, -, h2⟩ | ⟨h1, e, -, h2⟩⟩ :=
        decGroupsFrom_cases (w := w) (m := m) (len := len) (i0 := i0) (sh := sh) (left + 1) i r
      all_goals rw [h] at h2
      · simp only [Except.ok.injEq, Prod.mk.injEq] at h2; omega
      · simp only [Except.ok.injEq, Prod.mk.injEq] at h2; omega
      · cases h2
    have hi := hm (i0 + i) le_rfl (by omega)
    cases hb : byteRead m len (i0 + i) with
    | error e => rw [decGroupsFrom_error hb] at h; cases h
    | ok b =>
      cases hf : groupFlag b with
      | false => rw [decGroupsFrom_last (hi.trans hb) hf]; rwa [decGroupsFrom_last hb hf] at h
      | true =>
        rw [decGroupsFrom_more (hi.trans hb) hf]
        rw [decGroupsFrom_more hb hf] at h
        exact ih h fun a ha ha' => hm a (by omega) ha'

end DecGroups

/-- What `DECS` can do: it cannot read the first byte; it ends with it; or it goes on with `dec_groups`. -/
theorem decS_cases (w : Nat) (m : Memory) (len c : Nat) :
    (∃ e, byteRead m len c = .error e ∧ decS w m len c = .error e) ∨
    (∃ f, byteRead m len c = .ok f ∧ firstFlag f = false ∧
      decS w m len c = .ok (applySign w (signFlag f) (firstBits f), 1)) ∨
    (∃ f r n, byteRead m len c = .ok f ∧ firstFlag f = true ∧ decGroups w m len (c + 1) (groupsS w) 6 = .ok (r, n) ∧
      decS w m len c = .ok (applySign w (signFlag f) (firstBits f ||| r), 1 + n)) ∨
    ∃ f e, byteRead m len c = .ok f ∧ firstFlag f = true ∧ decGroups w m len (c + 1) (groupsS w) 6 = .error e ∧
      decS w m len c = .error e := by
  unfold decS
  cases hf : byteRead m len c with
  | error e => exact .inl ⟨e, rfl, rfl⟩
  | ok f =>
    cases hg : firstFlag f with
    | false => exact .inr (.inl ⟨f, rfl, hg, by simp [hg]⟩)
    | true =>
      cases hd : decGroups w m len (c + 1) (groupsS w) 6 with
      | error e => exact .inr (.inr (.inr ⟨f, e, rfl, hg, rfl, by simp [hg]⟩))
      | ok p => exact .inr (.inr (.inl ⟨f, p.1, p.2, rfl, hg, rfl, by simp [hg]⟩))

end Sys2Proof.Machine
end

