-- ==== Sys2Proof/Laws/Exec.lean ====
section
/-! SUPPORT. What an operation can do, once: the shared ends of an operation, and the cases of `exec` and `step`. -/

namespace Sys2Proof.Machine

/-- What the end of a bit-group primitive can do. -/
theorem finishBitop_cases (s : State) (r : Result) :
    (s.params.bitopsExposed = true ∧ s.finishBitop r = .next (s.respond r)) ∨
    (s.params.bitopsExposed = false ∧ s.finishBitop r = .next (s.raise .illegalOp)) := by
  unfold State.finishBitop
  cases s.params.bitopsExposed <;> simp

/-- What the end of an encode can do. -/
theorem finishEncode_cases (s : State) (e : List Byte) :
    (s.roomFor e.length ∧
      s.finishEncode e = .next ({ s with seq := s.seq.appendAll e }.respond (.encoded e.length))) ∨
    (¬ s.roomFor e.length ∧ s.finishEncode e = .refused .sequenceFull) := by
  unfold State.finishEncode
  by_cases h : s.roomFor e.length
  · exact .inl ⟨h, if_pos h⟩
  · exact .inr ⟨h, if_neg h⟩

/-- What the end of a decode can do. -/
theorem finishDecode_cases (s : State) (d : Except ReadStop (Nat × Nat)) :
    (s.lenHonest ∧ ∃ v n, d = .ok (v, n) ∧ s.finishDecode d =
      .next ({ s with cursor := s.req.curIn + n }.respond (.decoded v (s.req.curIn + n) n))) ∨
    (s.lenHonest ∧ d = .error .truncated ∧ s.finishDecode d = .next (s.raise .truncatedInput)) ∨
    ((¬ s.lenHonest ∨ d = .error .absent) ∧ s.finishDecode d = .refused .lenBeyondSequence) := by
  unfold State.finishDecode
  by_cases h : s.lenHonest
  · rw [if_pos h]
    match d with
    | .ok (v, n) => exact .inl ⟨h, v, n, rfl, rfl⟩
    | .error .truncated => exact .inr (.inl ⟨h, rfl, rfl⟩)
    | .error .absent => exact .inr (.inr ⟨.inr rfl, rfl⟩)
  · exact .inr (.inr ⟨.inl h, if_neg h⟩)

/-- The bytes an encode produces from the ports. -/
def encodedBytes (s : State) : Instr → List Byte
  | .encu => encU s.req.valIn
  | .encs => encS s.params.w s.req.valIn
  | .encGen false => encU s.req.valIn
  | .encGen true => encS s.params.w s.req.valIn
  | .btst | .bset | .bclr | .decu | .decs | .decGen _ => []

/-- What a decode finds at the ports' cursor. -/
def decodedResult (s : State) : Instr → Except ReadStop (Nat × Nat)
  | .decu => decU s.params.w s.seq s.req.len s.req.curIn
  | .decs => decS s.params.w s.seq s.req.len s.req.curIn
  | .decGen false => decU s.params.w s.seq s.req.len s.req.curIn
  | .decGen true => decS s.params.w s.seq s.req.len s.req.curIn
  | .btst | .bset | .bclr | .encu | .encs | .encGen _ => .error .absent

/-- What a bit-group primitive makes of the ports. -/
def bitopResult (s : State) : Instr → Result
  | .btst => .bit (bitTest s.req.unitIn s.req.pos)
  | .bset => .unit (bitSet s.req.unitIn s.req.pos)
  | .bclr | .encu | .encs | .encGen _ | .decu | .decs | .decGen _ => .unit (bitClear s.req.unitIn s.req.pos)

theorem exec_encode (i : Instr) (s : State) (h : i.isEncode = true) :
    exec i s = s.finishEncode (encodedBytes s i) := by
  cases i with
  | encGen b => cases b <;> rfl
  | encu => rfl
  | encs => rfl
  | _ => cases h

theorem exec_decode (i : Instr) (s : State) (h : i.isDecode = true) :
    exec i s = s.finishDecode (decodedResult s i) := by
  cases i with
  | decGen b => cases b <;> rfl
  | decu => rfl
  | decs => rfl
  | _ => cases h

theorem exec_bitop (i : Instr) (s : State) (h : i.isBitop = true) :
    exec i s = s.finishBitop (bitopResult s i) := by
  cases i with
  | btst => rfl
  | bset => rfl
  | bclr => rfl
  | _ => cases h

/-- Every operation is of one of the three kinds. -/
theorem instr_kind_cases (i : Instr) : i.isBitop = true ∨ i.isEncode = true ∨ i.isDecode = true := by
  cases i <;> simp [Instr.isBitop, Instr.isEncode, Instr.isDecode]

/-- All that an operation can do when it answers a next state. -/
theorem exec_next_cases {i : Instr} {s t : State} (h : exec i s = .next t) :
    (i.isBitop = true ∧ s.params.bitopsExposed = true ∧
      ((∃ b, bitopResult s i = .bit b) ∨ ∃ u, bitopResult s i = .unit u) ∧ t = s.respond (bitopResult s i)) ∨
    (i.isBitop = true ∧ s.params.bitopsExposed = false ∧ t = s.raise .illegalOp) ∨
    (i.isEncode = true ∧ s.roomFor (encodedBytes s i).length ∧
      t = { s with seq := s.seq.appendAll (encodedBytes s i) }.respond (.encoded (encodedBytes s i).length)) ∨
    (i.isDecode = true ∧ s.lenHonest ∧ ∃ v n, decodedResult s i = .ok (v, n) ∧
      t = { s with cursor := s.req.curIn + n }.respond (.decoded v (s.req.curIn + n) n)) ∨
    (i.isDecode = true ∧ s.lenHonest ∧ decodedResult s i = .error .truncated ∧ t = s.raise .truncatedInput) := by
  rcases instr_kind_cases i with hi | hi | hi
  · rw [exec_bitop i s hi] at h
    rcases finishBitop_cases s (bitopResult s i) with ⟨hx, e⟩ | ⟨hx, e⟩
    · rw [e] at h; cases h
      refine .inl ⟨hi, hx, ?_, rfl⟩
      cases i <;> simp [bitopResult]
    · rw [e] at h; cases h
      exact .inr (.inl ⟨hi, hx, rfl⟩)
  · rw [exec_encode i s hi] at h
    rcases finishEncode_cases s (encodedBytes s i) with ⟨hx, e⟩ | ⟨hx, e⟩ <;> rw [e] at h <;> cases h
    exact .inr (.inr (.inl ⟨hi, hx, rfl⟩))
  · rw [exec_decode i s hi] at h
    rcases finishDecode_cases s (decodedResult s i) with ⟨hl, v, n, hx, e⟩ | ⟨hl, hx, e⟩ | ⟨hx, e⟩ <;>
      rw [e] at h <;> cases h
    · exact .inr (.inr (.inr (.inl ⟨hi, hl, v, n, hx, rfl⟩)))
    · exact .inr (.inr (.inr (.inr ⟨hi, hl, hx, rfl⟩)))

/-- All that a step can do when it answers a next state. -/
theorem step_next_cases {s t : State} (h : step s = .next t) :
    (s.pending = [] ∧ t = s) ∨
    (∃ rest, s.pending = .blockReset :: rest ∧ t = { s with pending := rest }.blockReset) ∨
    (∃ bytes c rest, s.pending = .present bytes c :: rest ∧ t = { s with pending := rest }.present bytes c) ∨
    (∃ r rest i, s.pending = .request r :: rest ∧ decodeOp r.op = .ok i ∧
      exec i ({ s with pending := rest }.sample r) = .next t) ∨
    (∃ r rest e, s.pending = .request r :: rest ∧ decodeOp r.op = .error e ∧
      t = ({ s with pending := rest }.sample r).raise .illegalOp) := by
  unfold step State.takeInput at h
  cases hp : s.pending with
  | nil => rw [hp] at h; cases h; exact .inl ⟨rfl, rfl⟩
  | cons x rest =>
    rw [hp] at h
    cases x with
    | blockReset => cases h; exact .inr (.inl ⟨rest, rfl, rfl⟩)
    | present bytes c => cases h; exact .inr (.inr (.inl ⟨bytes, c, rest, rfl, rfl⟩))
    | request r =>
      simp only [State.sample_req, samplePorts_op] at h
      cases hd : decodeOp r.op with
      | ok i => rw [hd] at h; exact .inr (.inr (.inr (.inl ⟨r, rest, i, rfl, hd, h⟩)))
      | error e => rw [hd] at h; cases h; exact .inr (.inr (.inr (.inr ⟨r, rest, e, rfl, hd, rfl⟩)))

end Sys2Proof.Machine
end

