-- ==== Sys2Proof/Laws/Bounds.lean ====
section
/-! SUPPORT. How much an operation writes, reads and consumes: the bounds of 00_scope.md R11 on the codec functions. -/

namespace Sys2Proof.Machine

theorem two_le_groupsU {w : Nat} (h : 8 ≤ w) : 2 ≤ groupsU w := by simp [groupsU, ceilDiv]; omega
theorem one_le_groupsS {w : Nat} (h : 8 ≤ w) : 1 ≤ groupsS w := by simp [groupsS, ceilDiv]; omega

/-- A number of `bitLen v` bits has one group per 7 of them (41_unsigned_varint.md R78). -/
theorem encU_length {v : Nat} (hv : v ≠ 0) : (encU v).length = ceilDiv (bitLen v) 7 := by
  induction v using Nat.strong_induction_on with
  | _ v ih =>
    by_cases h : v < 128
    · have h7 : bitLen v ≤ 7 := (bitLen_le_iff v 7).2 (by omega)
      have h0 : ¬ bitLen v ≤ 0 := by rw [bitLen_le_iff]; omega
      rw [encU_of_lt h]
      simp [ceilDiv]; omega
    · have hi := ih (v / 128) (by omega) (by omega)
      have hb : bitLen (v / 128) = bitLen v - 7 := by rw [← bitLen_shiftRight, Nat.shiftRight_eq_div_pow]
      have h7 : ¬ bitLen v ≤ 7 := by rw [bitLen_le_iff]; omega
      rw [encU_of_ge (by omega), List.length_cons, hi, hb]
      simp [ceilDiv]; omega

theorem encU_length_le {v w : Nat} (h : v < 2 ^ w) (hw : 0 < w) : (encU v).length ≤ groupsU w := by
  rcases Nat.eq_zero_or_pos v with rfl | hv
  · rw [encU_of_lt (by omega)]; simp [groupsU, ceilDiv]; omega
  · have hb := (bitLen_le_iff v w).2 h
    rw [encU_length (by omega)]
    exact Nat.div_le_div_right (by omega)

/-- An OK `dec_groups`: how many bytes, how far, and how wide a pattern. -/
theorem decGroups_bounds {w : Nat} {m : Memory} {len i0 sh bound v n : Nat}
    (h : decGroups w m len i0 bound sh = .ok (v, n)) :
    n ≤ bound ∧ (1 ≤ bound → 1 ≤ n) ∧ (1 ≤ n → i0 + n ≤ len) ∧ v < 2 ^ w := by
  obtain ⟨k, hk, hall, hend⟩ := decGroupsFrom_cases (w := w) (m := m) (len := len) (i0 := i0) (sh := sh) bound 0 0
  have hlt := decGroupsFrom_lt (r := 0) (by positivity) h
  rw [decGroups] at h
  rcases hend with ⟨h1, v', h2⟩ | ⟨h1, b, v', h3, h4, h2⟩ | ⟨h1, e, h3, h2⟩ <;> rw [h] at h2 <;> cases h2
  · refine ⟨by omega, by omega, fun hh => ?_, hlt⟩
    obtain ⟨b, h5, -⟩ := hall (k - 1) (by omega)
    rw [byteRead_ok_iff] at h5; omega
  · rw [byteRead_ok_iff] at h3
    exact ⟨by omega, by omega, by omega, hlt⟩

theorem applySign_lt {w mag : Nat} (sign : Bool) (h : mag < 2 ^ w) : applySign w sign mag < 2 ^ w := by
  unfold applySign
  split
  · exact negW_lt _ _
  · exact h

/-- An OK `DECU`. -/
theorem decU_bounds {w : Nat} {m : Memory} {len c v n : Nat} (hw : 8 ≤ w) (h : decU w m len c = .ok (v, n)) :
    1 ≤ n ∧ n ≤ groupsU w ∧ c + n ≤ len ∧ v < 2 ^ w := by
  have hb := decGroups_bounds h
  have hg := two_le_groupsU hw
  omega

/-- An OK `DECS`. -/
theorem decS_bounds {w : Nat} {m : Memory} {len c v n : Nat} (hw : 8 ≤ w) (h : decS w m len c = .ok (v, n)) :
    1 ≤ n ∧ n ≤ 1 + groupsS w ∧ c + n ≤ len ∧ v < 2 ^ w := by
  have h64 : 2 ^ 6 ≤ 2 ^ w := Nat.pow_le_pow_right (by omega) (by omega)
  rcases decS_cases w m len c with ⟨e, h1, h2⟩ | ⟨f, h1, h3, h2⟩ | ⟨f, r, k, h1, h3, h4, h2⟩ | ⟨f, e, h1, h3, h4, h2⟩ <;>
    rw [h] at h2 <;> cases h2
  · rw [byteRead_ok_iff] at h1
    have hf := firstBits_lt f
    exact ⟨by omega, by omega, by omega, applySign_lt _ (by omega)⟩
  · have hg := decGroups_bounds h4
    have hs := one_le_groupsS hw
    have hf := firstBits_lt f
    exact ⟨by omega, by omega, by omega, applySign_lt _ (Nat.or_lt_two_pow (by omega) hg.2.2.2)⟩

/-- A canonical sequence has a byte at every index below an honest `len`. -/
theorem byteRead_ne_absent {m : Memory} {len : Nat} (hm : m.wf) (hl : len ≤ m.length) (i : Nat) :
    byteRead m len i ≠ .error .absent := by
  rw [Ne, byteRead_absent_iff, ← Option.not_isSome_iff_eq_none, Memory.read_some_iff_lt m hm]
  omega

theorem decGroups_ne_absent {w : Nat} {m : Memory} {len i0 bound sh : Nat} (hm : m.wf) (hl : len ≤ m.length) :
    decGroups w m len i0 bound sh ≠ .error .absent := by
  obtain ⟨k, -, -, ⟨-, v, h⟩ | ⟨-, b, v, -, -, h⟩ | ⟨-, e, he, h⟩⟩ :=
    decGroupsFrom_cases (w := w) (m := m) (len := len) (i0 := i0) (sh := sh) bound 0 0 <;> rw [decGroups, h]
  · nofun
  · nofun
  · rintro ⟨⟩; exact byteRead_ne_absent hm hl _ he

theorem decS_ne_absent {w : Nat} {m : Memory} {len c : Nat} (hm : m.wf) (hl : len ≤ m.length) :
    decS w m len c ≠ .error .absent := by
  rcases decS_cases w m len c with ⟨e, h1, h⟩ | ⟨f, -, -, h⟩ | ⟨f, r, k, -, -, -, h⟩ | ⟨f, e, -, -, h1, h⟩ <;> rw [h]
  · rintro ⟨⟩; exact byteRead_ne_absent hm hl _ h1
  · nofun
  · nofun
  · rintro ⟨⟩; exact decGroups_ne_absent hm hl h1

/-- On a canonical sequence with an honest `len` a decode needs no byte that is not there. -/
theorem decodedResult_ne_absent {s : State} {i : Instr} (hi : i.isDecode = true) (hm : s.seq.wf) (hl : s.lenHonest) :
    decodedResult s i ≠ .error .absent := by
  cases i with
  | decu => exact decGroups_ne_absent hm hl
  | decs => exact decS_ne_absent hm hl
  | decGen b =>
    cases b
    · exact decGroups_ne_absent hm hl
    · exact decS_ne_absent hm hl
  | _ => cases hi

/-- A decode depends on the bytes it consumed only. -/
theorem decS_congr {w : Nat} {m m' : Memory} {len len' c v n : Nat} (h : decS w m len c = .ok (v, n))
    (hm : ∀ a, c ≤ a → a < c + n → byteRead m' len' a = byteRead m len a) : decS w m' len' c = .ok (v, n) := by
  rcases decS_cases w m len c with ⟨e, h1, h2⟩ | ⟨f, h1, h3, h2⟩ | ⟨f, r, k, h1, h3, h4, h2⟩ | ⟨f, e, h1, h3, h4, h2⟩ <;>
    rw [h] at h2 <;> cases h2
  · unfold decS; rw [hm c (by omega) (by omega), h1]; simp [h3]
  · have hg := decGroupsFrom_congr (m' := m') (len' := len') h4 fun a ha ha' => hm a (by omega) (by omega)
    unfold decS; rw [hm c (by omega) (by omega), h1]; simp [h3, decGroups, hg]

end Sys2Proof.Machine
end

