-- ==== Sys2Proof/Laws/PerInstr.lean ====
section
/-! SUPPORT. The operation-select code: the decoder row by row, and what is so of every operation's code, one lemma per
operation. -/

namespace Sys2Proof

/-- The decoder's table (30_encoding.md R64, R65), each code with what it decodes to. -/
theorem decodeOp_rows (op : OpCode) :
    (op = 0b0000#4 ∧ decodeOp op = .ok .btst) ∨ (op = 0b0001#4 ∧ decodeOp op = .ok .bset) ∨
    (op = 0b0010#4 ∧ decodeOp op = .ok .bclr) ∨ (op = 0b1000#4 ∧ decodeOp op = .ok .encu) ∨
    (op = 0b1001#4 ∧ decodeOp op = .ok .encs) ∨ (op = 0b1010#4 ∧ decodeOp op = .ok .decu) ∨
    (op = 0b1011#4 ∧ decodeOp op = .ok .decs) ∨ (op = 0b0011#4 ∧ decodeOp op = .error .reservedFunction) ∨
    (op.getLsbD 2 = true ∧ decodeOp op = .error .reservedBit) := by
  revert op
  decide

end Sys2Proof

namespace Sys2Proof.Laws

/-- The fields of an operation's code (30_encoding.md R63): `cls` says whether it is a bit-group primitive, `rsv` is 0,
in the codec class `dir` says whether it decodes, and the code is one that every instance with the primitives has. -/
def Encoding.Statement (i : Instr) : Prop :=
  (encode i).getLsbD 3 = !i.isBitop ∧ (encode i).getLsbD 2 = false ∧
    (i.isBitop = false → (encode i).getLsbD 1 = i.isDecode) ∧ encode i.expand = encode i ∧
    ∀ p : Params, p.bitopsExposed = true → i.wf p = true

theorem Encoding.btst : Encoding.Statement .btst := ⟨rfl, rfl, nofun, rfl, fun _ h => h⟩
theorem Encoding.bset : Encoding.Statement .bset := ⟨rfl, rfl, nofun, rfl, fun _ h => h⟩
theorem Encoding.bclr : Encoding.Statement .bclr := ⟨rfl, rfl, nofun, rfl, fun _ h => h⟩
theorem Encoding.encu : Encoding.Statement .encu := ⟨rfl, rfl, fun _ => rfl, rfl, fun _ _ => rfl⟩
theorem Encoding.encs : Encoding.Statement .encs := ⟨rfl, rfl, fun _ => rfl, rfl, fun _ _ => rfl⟩
theorem Encoding.decu : Encoding.Statement .decu := ⟨rfl, rfl, fun _ => rfl, rfl, fun _ _ => rfl⟩
theorem Encoding.decs : Encoding.Statement .decs := ⟨rfl, rfl, fun _ => rfl, rfl, fun _ _ => rfl⟩

theorem Encoding.encGen (s : Bool) : Encoding.Statement (.encGen s) := by
  cases s <;> exact ⟨rfl, rfl, fun _ => rfl, rfl, fun _ _ => rfl⟩

theorem Encoding.decGen (s : Bool) : Encoding.Statement (.decGen s) := by
  cases s <;> exact ⟨rfl, rfl, fun _ => rfl, rfl, fun _ _ => rfl⟩

end Sys2Proof.Laws
end

