-- ==== Sys2Proof/Tests/Slice0.lean ====
section
/-! SUPPORT. The model's own tests: what WellFormed refuses, each code of the table, one or two steps of each operation
with the values of spec/95_test_vectors.md, and, for each claim that has hypotheses, a state that meets them. -/

namespace Sys2Proof.Tests

open Sys2Proof Sys2Proof.Machine Sys2Proof.Claims

/-! ## Small states -/

/-- An instance of width `w` with `A` = 8 whose caller holds `bytes`, with these operands on the request ports and `len`
the true length. -/
def at8 (w : Nat) (bytes : List Byte) (valIn curIn : Nat) : State :=
  { State.reset with
    params := { w := w, a := 8, bitopsExposed := true }
    seq := Memory.ofBytes bytes
    cursor := curIn
    req := { op := 0, valIn := valIn, unitIn := 0, pos := 0, curIn := curIn, len := bytes.length } }

/-- A state whose ports carry a unit and a position. -/
def onUnit (u : Byte) (p : Pos) : State := { State.reset with req := { Ports.reset with unitIn := u, pos := p } }

/-- The same instance without the bit-group primitives. -/
def hidden (s : State) : State := { s with params := { s.params with bitopsExposed := false } }

/-- The same state with this input pending. -/
def withInput (s : State) (x : Input) : State := { s with pending := [x] }

/-- The next state, where there is one. -/
def nextOf : Answer → Option State
  | .next t => some t
  | .fault _ => none
  | .refused _ => none

/-- `err`, `val_out`, `cur_out`, `nbytes` of a decode, and the caller's cursor. -/
def decoded (o : Answer) : Option (BitVec 2 × Nat × Nat × Nat × Nat) :=
  (nextOf o).bind fun t => t.resp.map fun p => (p.err, p.valOut, p.curOut, p.nbytes, t.cursor)

/-- `err`, `nbytes` of an encode, and the bytes of the sequence. -/
def encoded (o : Answer) : Option (BitVec 2 × Nat × List Byte) :=
  (nextOf o).bind fun t => t.resp.map fun p => (p.err, p.nbytes, t.seq.bytes)

/-- `err`, `cur_out` of a response, the bytes of the sequence and the caller's cursor. -/
def failed (o : Answer) : Option (BitVec 2 × Nat × List Byte × Nat) :=
  (nextOf o).bind fun t => t.resp.map fun p => (p.err, p.curOut, t.seq.bytes, t.cursor)

/-- `err` and `bit_out`. -/
def bitOf (o : Answer) : Option (BitVec 2 × BitVec 1) :=
  (nextOf o).bind fun t => t.resp.map fun p => (p.err, p.bitOut)

/-- `err` and `unit_out`. -/
def unitOf (o : Answer) : Option (BitVec 2 × Byte) :=
  (nextOf o).bind fun t => t.resp.map fun p => (p.err, p.unitOut)

/-! ## What WellFormed refuses -/

theorem test_wf_width_not_multiple_of_8 : ¬ Params.wf { w := 12, a := 8, bitopsExposed := true } := by decide
theorem test_wf_width_zero : ¬ Params.wf { w := 0, a := 8, bitopsExposed := true } := by decide
theorem test_wf_width_8 : Params.wf { w := 8, a := 8, bitopsExposed := true } := by decide
theorem test_wf_btst_hidden : Instr.wf { w := 8, a := 8, bitopsExposed := false } .btst = false := by decide
theorem test_wf_bset_hidden : Instr.wf { w := 8, a := 8, bitopsExposed := false } .bset = false := by decide
theorem test_wf_bclr_hidden : Instr.wf { w := 8, a := 8, bitopsExposed := false } .bclr = false := by decide
theorem test_wf_value_too_wide :
    ¬ Request.wf { w := 8, a := 8, bitopsExposed := true }
      { op := 8, valIn := 256, unitIn := 0, pos := 0, curIn := none, len := none } := by decide
theorem test_wf_cursor_too_wide :
    ¬ Request.wf { w := 8, a := 2, bitopsExposed := true }
      { op := 10, valIn := 0, unitIn := 0, pos := 0, curIn := some 4, len := none } := by decide
theorem test_wf_len_too_wide :
    ¬ Request.wf { w := 8, a := 2, bitopsExposed := true }
      { op := 10, valIn := 0, unitIn := 0, pos := 0, curIn := none, len := some 4 } := by decide
theorem test_wf_input_request :
    Input.wf { w := 8, a := 2, bitopsExposed := true }
      (.request { op := 8, valIn := 256, unitIn := 0, pos := 0, curIn := none, len := none }) = false := by decide
theorem test_wf_sequence_too_long :
    Input.wf { w := 8, a := 2, bitopsExposed := true } (.present [1, 2, 3, 4] 0) = false := by decide
theorem test_wf_presented_cursor_too_wide :
    Input.wf { w := 8, a := 2, bitopsExposed := true } (.present [] 4) = false := by decide
theorem test_wf_block_reset : Input.wf { w := 8, a := 2, bitopsExposed := true } .blockReset = true := by decide
theorem test_wf_memory_gap : ¬ Memory.wf [(0, 1), (2, 1)] := by decide
theorem test_wf_memory_order : ¬ Memory.wf [(1, 1), (0, 1)] := by decide

/-! ## The operation-select code, bit by bit from 30_encoding.md section 5 -/

/-- cls 0, rsv 0, fn 00. -/
theorem test_decode_btst : decodeOp 0b0000#4 = .ok .btst := by decide
/-- cls 0, rsv 0, fn 01. -/
theorem test_decode_bset : decodeOp 0b0001#4 = .ok .bset := by decide
/-- cls 0, rsv 0, fn 10. -/
theorem test_decode_bclr : decodeOp 0b0010#4 = .ok .bclr := by decide
/-- cls 1, rsv 0, dir 0, s 0. -/
theorem test_decode_encu : decodeOp 0b1000#4 = .ok .encu := by decide
/-- cls 1, rsv 0, dir 0, s 1. -/
theorem test_decode_encs : decodeOp 0b1001#4 = .ok .encs := by decide
/-- cls 1, rsv 0, dir 1, s 0. -/
theorem test_decode_decu : decodeOp 0b1010#4 = .ok .decu := by decide
/-- cls 1, rsv 0, dir 1, s 1. -/
theorem test_decode_decs : decodeOp 0b1011#4 = .ok .decs := by decide
/-- `100s` is ENCU or ENCS (30_encoding.md R69). -/
theorem test_decode_encGen : ∀ s : Bool, decodeOp (0b100#3 ++ BitVec.ofBool s) = .ok (Instr.encGen s).expand := by decide
/-- `101s` is DECU or DECS (R69). -/
theorem test_decode_decGen : ∀ s : Bool, decodeOp (0b101#3 ++ BitVec.ofBool s) = .ok (Instr.decGen s).expand := by decide
theorem test_encode_btst : encode .btst = 0b0000#4 := by decide
theorem test_encode_bset : encode .bset = 0b0001#4 := by decide
theorem test_encode_bclr : encode .bclr = 0b0010#4 := by decide
theorem test_encode_encu : encode .encu = 0b1000#4 := by decide
theorem test_encode_encs : encode .encs = 0b1001#4 := by decide
theorem test_encode_decu : encode .decu = 0b1010#4 := by decide
theorem test_encode_decs : encode .decs = 0b1011#4 := by decide
theorem test_encode_encGen : encode (.encGen false) = 0b1000#4 ∧ encode (.encGen true) = 0b1001#4 := by decide
theorem test_encode_decGen : encode (.decGen false) = 0b1010#4 ∧ encode (.decGen true) = 0b1011#4 := by decide
theorem test_decode_reserved_function : decodeOp 0b0011#4 = .error .reservedFunction := by decide
theorem test_decode_reserved_bit : ∀ op : OpCode, op.getLsbD 2 = true → decodeOp op = .error .reservedBit := by decide

/-! ## One step of each operation; the values are those of the spec's worked examples -/

/-- 40_bit_primitives.md R71. -/
theorem test_btst_set : bitOf (exec .btst (onUnit 0xAC 7)) = some (0, 1) := by decide
theorem test_btst_clear : bitOf (exec .btst (onUnit 0xAC 0)) = some (0, 0) := by decide
/-- R72. -/
theorem test_bset : unitOf (exec .bset (onUnit 0x2C 7)) = some (0, 0xAC) := by decide
/-- R66: not exposed. -/
theorem test_bset_hidden : failed (exec .bset (hidden (at8 8 [7] 0 1))) = some (2, 1, [7], 1) := by decide
/-- R73. -/
theorem test_bclr : unitOf (exec .bclr (onUnit 0xAC 7)) = some (0, 0x2C) := by decide
/-- 41_unsigned_varint.md R77: the source's example. -/
theorem test_encu_300 : encoded (exec .encu (at8 16 [0x55] 300 0)) = some (0, 2, [0x55, 0xAC, 0x02]) := by decide
theorem test_encu_max : encoded (exec .encu (at8 32 [] 0xFFFFFFFF 0)) = some (0, 5, [0xFF, 0xFF, 0xFF, 0xFF, 0x0F]) := by
  decide
/-- 42_signed_varint.md R88: -300, and the minimum. -/
theorem test_encs_minus_300 : encoded (exec .encs (at8 16 [] (65536 - 300) 0)) = some (0, 2, [0xEC, 0x04]) := by decide
theorem test_encs_min : encoded (exec .encs (at8 8 [] 0x80 0)) = some (0, 2, [0xC0, 0x02]) := by decide
/-- 41_unsigned_varint.md R80: the source's example. -/
theorem test_decu_300 : decoded (exec .decu (at8 16 [0xAC, 0x02] 0 0)) = some (0, 300, 2, 2, 2) := by decide
/-- R81: the bound reached with the flag still set. -/
theorem test_decu_bound : decoded (exec .decu (at8 8 [0x81, 0x81, 0x55] 0 0)) = some (0, 0x81, 2, 2, 2) := by decide
/-- 42_signed_varint.md R92, R93 (d). -/
theorem test_decs_min : decoded (exec .decs (at8 8 [0x00, 0xC0, 0x02] 0 1)) = some (0, 128, 3, 2, 3) := by decide
/-- R93 (e): a magnitude out of the signed range. -/
theorem test_decs_out_of_range : decoded (exec .decs (at8 8 [0xFF, 0x03] 0 0)) = some (0, 1, 2, 2, 2) := by decide
/-- 43_generic_dispatch.md R98. -/
theorem test_encGen_u : encoded (exec (.encGen false) (at8 8 [] 0xFF 0)) = some (0, 2, [0xFF, 0x01]) := by decide
theorem test_encGen_s : encoded (exec (.encGen true) (at8 8 [] 0xFF 0)) = some (0, 1, [0x81]) := by decide
/-- R99. -/
theorem test_decGen_s : decoded (exec (.decGen true) (at8 8 [0x81] 0 0)) = some (0, 0xFF, 1, 1, 1) := by decide
theorem test_decGen_u : failed (exec (.decGen false) (at8 8 [0x81] 0 0)) = some (1, 0, [0x81], 0) := by decide
/-- 41_unsigned_varint.md R82. -/
theorem test_decu_truncated : failed (exec .decu (at8 16 [0xAC] 0 0)) = some (1, 0, [0xAC], 0) := by decide
/-- 42_signed_varint.md R94. -/
theorem test_decs_truncated : failed (exec .decs (at8 16 [0x40, 0x80] 0 0)) = some (1, 0, [0x40, 0x80], 0) := by decide
/-- The stop of entry 5 (U10 "refuse"), also where every byte that the decode needs is there. -/
theorem test_len_too_large :
    exec .decu { at8 8 [0x05] 0 0 with req := { Ports.reset with len := 2 } } = .refused .lenBeyondSequence := rfl
/-- 70_reset_and_hazards.md R120: the spec's vector, `len` given as 1 over `AC 02` with `W` = 32. -/
theorem test_len_smaller :
    failed (exec .decu { at8 32 [0xAC, 0x02] 0 0 with req := { Ports.reset with len := 1 } }) = some (1, 0, [0xAC, 0x02], 0) := by
  decide
/-- The stop of entry 4. -/
theorem test_sequence_full : exec .encu { at8 8 [1, 2] 128 0 with params := { w := 8, a := 2, bitopsExposed := true } } =
    .refused .sequenceFull := rfl
/-- 30_encoding.md R66: a reserved code. -/
theorem test_step_reserved : failed (step (withInput (at8 8 [5] 0 1) (request 0b0011#4 0))) = some (2, 1, [5], 1) := by decide
/-- R68: the step drives `cur_in` from the cursor and `len` from the sequence. -/
theorem test_step_decu : decoded (step (withInput { at8 8 [5, 6] 0 1 with req := Ports.reset } (request 0b1010#4 0))) =
    some (0, 6, 2, 1, 2) := by decide
/-- A table word is what the next step runs. -/
theorem test_fetch_word : encoded (step (State.reset.withFetchWord 8 0b1000)) = some (0, 1, [0x00]) := by decide
theorem test_reset_no_response : State.reset.resp = none := by decide

/-! ## A state that meets the hypotheses of each claim -/

theorem witness_BlockResetIsInvisible : (withInput State.reset .blockReset).pending = .blockReset :: [] := rfl
theorem witness_IdleStepChangesNothing : State.reset.pending = [] := rfl
theorem witness_PresentSetsSequenceAndCursor : (withInput State.reset (.present [1, 2] 1)).pending = .present [1, 2] 1 :: [] := rfl
theorem witness_StepRunsDecodedRequest :
    (withInput State.reset (request 0b1011#4 0)).pending = request 0b1011#4 0 :: [] ∧ decodeOp 0b1011#4 = .ok .decs :=
  ⟨rfl, rfl⟩

/-- Each kind of reserved code, at both ends of its range. -/
theorem witness_IllegalOpExactlyForReservedCodes :
    (∀ op ∈ [0b0011#4, 0b0100#4, 0b0111#4, 0b1100#4, 0b1111#4], ReservedCode State.reset.params op) ∧
    (∀ op ∈ [0b0000#4, 0b0001#4, 0b0010#4], ReservedCode (hidden State.reset).params op) ∧
    ∀ op ∈ [0b0000#4, 0b0010#4, 0b1000#4, 0b1011#4], ¬ ReservedCode State.reset.params op := by
  unfold ReservedCode; decide

theorem witness_StepTakesOneInput :
    (∃ t, step (withInput State.reset (request 0b1000#4 5)) = .next t) ∧
    ∀ bytes c, (withInput State.reset (request 0b1000#4 5)).pending.head? ≠ some (.present bytes c) :=
  ⟨⟨_, rfl⟩, nofun⟩

theorem witness_EveryStepKeepsInvariant :
    (withInput (at8 8 [0x81, 0x01] 255 0) (request 0b1000#4 255)).Inv ∧
    ∃ t, step (withInput (at8 8 [0x81, 0x01] 255 0) (request 0b1000#4 255)) = .next t := ⟨by decide, _, rfl⟩

theorem witness_BtstTestsOneBit :
    (onUnit 0x80 7).params.bitopsExposed = true ∧ (hidden (onUnit 0x80 7)).params.bitopsExposed = false := ⟨rfl, rfl⟩
theorem witness_BsetSetsOneBit :
    (onUnit 0 7).params.bitopsExposed = true ∧ (hidden (onUnit 0 0)).params.bitopsExposed = false := ⟨rfl, rfl⟩
theorem witness_BclrClearsOneBit :
    (onUnit 0xFF 7).params.bitopsExposed = true ∧ (hidden (onUnit 0xFF 0)).params.bitopsExposed = false := ⟨rfl, rfl⟩
theorem witness_BitPrimitiveLaws : (7#3 : Pos) ≠ 0#3 := by decide

/-- Room for exactly the bytes there are. -/
def lastRoom : State := { at8 8 [9] 200 0 with params := { w := 8, a := 2, bitopsExposed := true } }

theorem witness_EncuAppendsItsBytes : lastRoom.seq.wf ∧ lastRoom.roomFor (encU lastRoom.req.valIn).length := by decide
theorem witness_EncsAppendsItsBytes :
    lastRoom.seq.wf ∧ lastRoom.roomFor (encS lastRoom.params.w lastRoom.req.valIn).length := by decide
theorem witness_EncGenFollowsDeclaredSignedness : lastRoom.seq.wf ∧
    ∀ sgn : Bool, lastRoom.roomFor (encBytes lastRoom.params.w sgn lastRoom.req.valIn).length := by decide
/-- One byte more, and there is no room. -/
theorem witness_EncodeRefusedExactlyWithoutRoom :
    ¬ { lastRoom with seq := Memory.ofBytes [9, 9] }.roomFor (encU lastRoom.req.valIn).length ∧
    ¬ { lastRoom with seq := Memory.ofBytes [9, 9] }.roomFor (encS lastRoom.params.w 192).length := by decide

theorem witness_UnsignedEncodingClosedForm :
    2 ≤ (encU 128).length ∧ 1 ≤ (encU 127).length ∧ (255 < 2 ^ 8 ∧ 0 < 8) ∧ 0 < (encU 0).length ∧ 1 < (encU 255).length := by
  decide
theorem witness_UnsignedEncodingIsMinimal :
    255 < 2 ^ 8 ∧ orGroups 0 [0xFF#8, 0x81#8, 0x00#8] % 2 ^ 8 = 255 ∧ 1 < (encU 255).length := by decide
theorem witness_TwosComplementPatternsAreInverse :
    (0 < 8) ∧ ((-2 ^ (8 - 1) : Int) ≤ -128 ∧ (-128 : Int) < 2 ^ (8 - 1)) ∧ ((-2 ^ (8 - 1) : Int) ≤ 127 ∧ (127 : Int) < 2 ^ (8 - 1)) ∧
      128 < 2 ^ 8 := by decide
theorem witness_SignAndMagnitudeOfEveryValue :
    (0 < 8) ∧ (-2 ^ (8 - 1) : Int) ≤ -128 ∧ (-128 : Int) < 2 ^ (8 - 1) := by decide
theorem witness_SignedEncodingBytes :
    ((-2 ^ (8 - 1) : Int) ≤ -64 ∧ (-64 : Int) < 2 ^ (8 - 1) ∧ 63 < (-64 : Int).natAbs) ∧
    ((-2 ^ (8 - 1) : Int) ≤ 63 ∧ (63 : Int) < 2 ^ (8 - 1) ∧ (63 : Int).natAbs ≤ 63) := by decide
theorem witness_SignedEncodingLength :
    (-2 ^ (16 - 1) : Int) ≤ -32768 ∧ (-32768 : Int) < 2 ^ (16 - 1) ∧ 63 < (-32768 : Int).natAbs ∧
      (encS 16 (bitsW 16 (-32768))).length = 3 ∧ (encS 16 (bitsW 16 8191)).length = 2 := by decide
theorem witness_SignFidelity : (0 : Int) < 127 ∧ (127 : Int) ≤ 2 ^ (8 - 1) - 1 := by decide

/-! Runs of bytes that stand in a sequence. -/

theorem standsAt_two {m : Memory} {c : Nat} {a b : Byte} (h0 : m.read (c + 0) = some a) (h1 : m.read (c + 1) = some b) :
    StandsAt m c [a, b] := by
  rintro (_ | _ | j) hj
  · exact h0
  · exact h1
  · simp at hj

theorem groupRun_two {bound : Nat} {a b : Byte} (hb : 2 ≤ bound) (ha : a.getLsbD 7 = true)
    (hl : bound = 2 ∨ b.getLsbD 7 = false) : GroupRun bound [a, b] := by
  refine ⟨nofun, hb, ?_, hl.imp (fun h => h.symm) fun h c hc => ?_⟩
  · rintro (_ | j) c hc hj
    · cases hc; exact ha
    · simp at hj
  · cases hc; exact h

/-- A run that ends with its flag clear, and one that ends at the bound. -/
theorem witness_DecuReadsTheValue :
    ((at8 16 [0xAC, 0x02] 0 0).lenHonest ∧ (at8 8 [0x81, 0x81, 0x55] 0 0).lenHonest) ∧
    (StandsAt (at8 16 [0xAC, 0x02] 0 0).seq 0 [0xAC, 0x02] ∧ GroupRun (groupsU 16) [0xAC, 0x02]) ∧
    StandsAt (at8 8 [0x81, 0x81, 0x55] 0 0).seq 0 [0x81, 0x81] ∧ GroupRun (groupsU 8) [0x81, 0x81] :=
  ⟨by decide, ⟨standsAt_two rfl rfl, groupRun_two (by decide) rfl (.inr rfl)⟩, standsAt_two rfl rfl,
    groupRun_two (by decide) rfl (.inl rfl)⟩

/-- The cursor at the end, and one byte short of the bound. -/
theorem witness_DecuTruncatedExactly :
    ((at8 8 [0x80] 0 1).params.wf ∧ (at8 8 [0x80] 0 1).seq.wf ∧ (at8 8 [0x80] 0 1).lenHonest ∧
      (at8 8 [0x80] 0 1).req.len ≤ (at8 8 [0x80] 0 1).req.curIn) ∧
    AllFlagged (at8 8 [0x80] 0 0).seq 0 1 ∧ (1 - 0 < groupsU 8) ∧
    ∃ t, exec .decu (at8 8 [0x80] 0 0) = .next t ∧ Answers t fun p => p.err = 1#2 := by
  refine ⟨by decide, fun a _ h => ?_, by decide, _, rfl, _, rfl, rfl⟩
  obtain rfl : a = 0 := by omega
  exact ⟨0x80, rfl, rfl⟩

/-- A first byte alone, and one with a continuation run at the bound. -/
theorem witness_DecsReadsTheValue :
    (StandsAt (at8 8 [0x80, 0x01] 0 0).seq 0 [0x80] ∧ (0x80 : Byte).getLsbD 6 = false) ∧
    StandsAt (at8 8 [0x41, 0x81, 0x55] 0 0).seq 0 [0x41, 0x81] ∧ (0x41 : Byte).getLsbD 6 = true ∧
      GroupRun (groupsS 8) [0x81] ∧ (at8 8 [0x41, 0x81, 0x55] 0 0).params.wf ∧
      (at8 8 [0x80, 0x01] 0 0).lenHonest ∧ (at8 8 [0x41, 0x81, 0x55] 0 0).lenHonest := by
  refine ⟨⟨?_, by decide⟩, standsAt_two rfl rfl, by decide, ⟨nofun, by decide, ?_, .inl rfl⟩, by decide⟩
  · rintro (_ | j) hj
    · rfl
    · simp at hj
  · intro j b _ hj; simp at hj

theorem witness_DecsTruncatedExactly :
    ((at8 16 [0x40, 0x80] 0 2).params.wf ∧ (at8 16 [0x40, 0x80] 0 2).seq.wf ∧ (at8 16 [0x40, 0x80] 0 2).lenHonest ∧
      (at8 16 [0x40, 0x80] 0 2).req.len ≤ (at8 16 [0x40, 0x80] 0 2).req.curIn) ∧
    ((∃ f, (at8 16 [0x40, 0x80] 0 0).seq.read 0 = some f ∧ f.getLsbD 6 = true) ∧
      AllFlagged (at8 16 [0x40, 0x80] 0 0).seq 1 2 ∧ 2 - 1 < groupsS 16) ∧
    ∃ t, exec .decs (at8 16 [0x40, 0x80] 0 0) = .next t ∧ Answers t fun p => p.err = 1#2 := by
  refine ⟨by decide, ⟨⟨0x40, rfl, rfl⟩, fun a _ h => ?_, by decide⟩, _, rfl, _, rfl, rfl⟩
  obtain rfl : a = 1 := by omega
  exact ⟨0x80, rfl, rfl⟩

theorem witness_DecGenFollowsDeclaredSignedness : (at8 8 [0x81] 0 0).seq.wf ∧ (at8 8 [0x81] 0 0).lenHonest := by decide

/-- `len` one above the true length, and the true length itself. -/
theorem witness_DecodeRefusedExactlyForTooLargeLen :
    let s := { at8 8 [0xC0] 0 0 with req := { Ports.reset with len := 2 } }
    (s.seq.wf ∧ s.seq.length < s.req.len) ∧ (at8 8 [0xC0] 0 0).seq.wf ∧
      ¬ (at8 8 [0xC0] 0 0).seq.length < (at8 8 [0xC0] 0 0).req.len := by decide

theorem witness_DecodersNeverRejectContent :
    (at8 8 [0x55, 0xFF, 0xFF] 0 1).params.wf ∧ (at8 8 [0x55, 0xFF, 0xFF] 0 1).seq.wf ∧ (at8 8 [0x55, 0xFF, 0xFF] 0 1).lenHonest ∧
      ∀ sgn : Bool, 1 + maxLen 8 sgn ≤ (at8 8 [0x55, 0xFF, 0xFF] 0 1).req.len := by decide

theorem witness_DecodeLeavesCursorPastLastByte :
    (at8 8 [0x05] 0 0).params.wf ∧ Instr.isDecode .decu = true ∧
    ∃ t, exec .decu (at8 8 [0x05] 0 0) = .next t ∧ Answers t fun p => p.err = 0#2 := ⟨by decide, rfl, _, rfl, _, rfl, rfl⟩

/-- The bytes before and after the span differ, and so does `len`. -/
theorem witness_DecodeReadsOnlyItsSpan :
    (∃ t p, exec .decs (at8 8 [0x11, 0x40, 0x01, 0x22] 0 1) = .next t ∧ t.resp = some p ∧ p.err = 0#2 ∧ p.curOut = 3) ∧
    3 ≤ (at8 8 [0xFF, 0x40, 0x01] 0 1).req.len ∧ (at8 8 [0xFF, 0x40, 0x01] 0 1).lenHonest ∧
    ∀ a, 1 ≤ a → a < 3 → (at8 8 [0xFF, 0x40, 0x01] 0 1).seq.read a = (at8 8 [0x11, 0x40, 0x01, 0x22] 0 1).seq.read a := by
  refine ⟨⟨_, _, rfl, rfl, rfl, rfl⟩, by decide, by decide, fun a h1 h3 => ?_⟩
  rcases (by omega : a = 1 ∨ a = 2) with rfl | rfl <;> rfl

/-- `len` = 1 over a sequence of two bytes. -/
def shortLen : State := { at8 8 [0x81, 0x01] 0 0 with req := { Ports.reset with len := 1 } }

theorem witness_ShorterLenIsTheCutSequence :
    Instr.isDecode .decu = true ∧ shortLen.seq.wf ∧ shortLen.lenHonest ∧ ∃ t, exec .decu shortLen = .next t :=
  ⟨rfl, by decide, by decide, _, rfl⟩

theorem witness_RepeatedDecodeGivesSameAnswer :
    Instr.isDecode (.decGen true) = true ∧ ∃ t, exec (.decGen true) (at8 8 [0x81] 0 0) = .next t := ⟨rfl, _, rfl⟩

theorem witness_RecoveryAfterTruncation :
    ∃ t u, exec .decu (at8 8 [0x81] 0 0) = .next t ∧ (Answers t fun p => p.err = 1#2) ∧
      exec .decu (grown (at8 8 [0x81] 0 0) [0x01]) = .next u ∧ Answers u fun p => p.err = 0#2 :=
  ⟨_, _, rfl, ⟨_, rfl, rfl⟩, rfl, _, rfl, rfl⟩

/-- A lossy run of `W` = 8 (41_unsigned_varint.md R81) and one that is not. -/
theorem witness_LossyExactlyWhenBitsAreLost :
    (StandsAt (at8 8 [0x80, 0x02] 0 0).seq 0 [0x80, 0x02] ∧ GroupRun (groupsU 8) [0x80, 0x02] ∧
      lossyU 8 (at8 8 [0x80, 0x02] 0 0).seq 0 = true) ∧
    lossyU 8 (at8 8 [0xFF, 0x01] 0 0).seq 0 = false :=
  ⟨⟨standsAt_two rfl rfl, groupRun_two (by decide) rfl (.inl rfl), by decide⟩, by decide⟩

theorem witness_UnsignedRoundTrip :
    (at8 8 [0x55, 0xFF, 0x01, 0x66] 0 1).params.wf ∧ 255 < 2 ^ 8 ∧
    (at8 8 [0x55, 0xFF, 0x01, 0x66] 0 1).seq = Memory.ofBytes ([0x55] ++ encU 255 ++ [0x66]) ∧
    (at8 8 [0x55, 0xFF, 0x01, 0x66] 0 1).req.len = (at8 8 [0x55, 0xFF, 0x01, 0x66] 0 1).seq.length := by decide

theorem witness_SignedRoundTrip :
    (at8 8 [0x55, 0xC0, 0x02] 0 1).params.wf ∧ ((-2 ^ (8 - 1) : Int) ≤ -128 ∧ (-128 : Int) < 2 ^ (8 - 1)) ∧
    (at8 8 [0x55, 0xC0, 0x02] 0 1).seq = Memory.ofBytes ([0x55] ++ encS 8 (bitsW 8 (-128)) ++ []) ∧
    (at8 8 [0x55, 0xC0, 0x02] 0 1).req.len = (at8 8 [0x55, 0xC0, 0x02] 0 1).seq.length := by decide

/-- Two values, one of each signedness, encoded after a byte that is there. -/
def pair : List (Bool × Nat) := [(true, 0x80), (false, 0xFF)]

theorem witness_BackToBackValuesDecodeInOrder :
    let s := { at8 8 [0x55] 0 1 with pending := pair.map encodeRequest ++ pair.map decodeRequest ++ [] }
    s.params.wf ∧ s.seq.wf ∧ (∀ x ∈ pair, x.2 < 2 ^ s.params.w) ∧ s.roomFor (encodeAll s.params.w pair).length ∧
      s.cursor = s.seq.length ∧ pair[1]? = some (false, 0xFF) := by decide

theorem witness_ReencodingReproducesExactlyCanonicalBytes :
    (at8 8 [0x80, 0x00] 0 0).params.wf ∧ (at8 8 [0x80, 0x00] 0 0).seq.wf ∧ (at8 8 [0x80, 0x00] 0 0).lenHonest ∧
    (∃ t p, exec (.decGen false) (at8 8 [0x80, 0x00] 0 0) = .next t ∧ t.resp = some p ∧ p.err = 0#2 ∧ 2 = p.nbytes) ∧
    StandsAt (at8 8 [0x80, 0x00] 0 0).seq 0 [0x80, 0x00] :=
  ⟨by decide, by decide, by decide, ⟨_, _, rfl, rfl, rfl, rfl⟩, standsAt_two rfl rfl⟩

/-- The error of a decode, and the error of a primitive that is not exposed. -/
theorem witness_ErrorResponseKeepsEverything :
    (∃ t p, exec .decs (at8 8 [0x40] 0 0) = .next t ∧ t.resp = some p ∧ p.err ≠ 0#2) ∧
    ∃ t p, exec .btst (hidden State.reset) = .next t ∧ t.resp = some p ∧ p.err ≠ 0#2 :=
  ⟨⟨_, _, rfl, rfl, by decide⟩, _, _, rfl, rfl, by decide⟩

theorem witness_WhichOperationRaisesWhat :
    (∃ t p, exec .decu (at8 8 [] 0 0) = .next t ∧ t.resp = some p ∧ p.err = 1#2) ∧
    (∃ t p, exec .bclr (hidden State.reset) = .next t ∧ t.resp = some p ∧ p.err = 2#2) ∧
    ReservedCode (withInput State.reset (request 0b1111#4 0)).params 0b1111#4 :=
  ⟨⟨_, _, rfl, rfl, rfl⟩, ⟨_, _, rfl, rfl, rfl⟩, .inr (.inl rfl)⟩

theorem witness_OnlyEncodesAppendOnlyDecodesMoveCursor :
    (at8 8 [0x05] 200 0).seq.wf ∧ (∃ t, exec .decu (at8 8 [0x05] 200 0) = .next t) ∧
    (∃ t, exec .encu (at8 8 [0x05] 200 0) = .next t) ∧
    Instr.isEncode .decu = false ∧ Instr.isDecode .encu = false := ⟨by decide, ⟨_, rfl⟩, ⟨_, rfl⟩, rfl, rfl⟩

theorem witness_EncodeIgnoresTheSequence :
    Instr.isEncode .encs = true ∧ (at8 8 [] 200 0).params = (at8 8 [1, 2] 200 1).params ∧
    (∃ t, exec .encs (at8 8 [] 200 0) = .next t) ∧ ∃ t, exec .encs (at8 8 [1, 2] 200 1) = .next t :=
  ⟨rfl, rfl, ⟨_, rfl⟩, _, rfl⟩

/-- Other values on every port that the operation does not use. -/
theorem witness_UnusedOperandsAreIgnored :
    (∃ t, exec .decu (at8 8 [5] 0 0) = .next t) ∧ (∃ t, exec .encu (at8 8 [5] 9 0) = .next t) ∧
    (∃ t, exec .bset (onUnit 4 1) = .next t) ∧ (onUnit 4 1).params.bitopsExposed = true ∧
    ({ op := 1, valIn := 77, unitIn := 3, pos := 2, curIn := 0, len := 1 } : Ports) ≠ (at8 8 [5] 0 0).req :=
  ⟨⟨_, rfl⟩, ⟨_, rfl⟩, ⟨_, rfl⟩, rfl, by decide⟩

/-- Room for exactly the longest encoding. -/
theorem witness_EveryOperationEnds :
    lastRoom.Inv ∧ lastRoom.lenHonest ∧ lastRoom.roomy ∧ lastRoom.seq.length + 2 = 2 ^ lastRoom.params.a - 1 := by decide

theorem witness_ByteCountsAreBounded :
    (at8 8 [] 255 0).params.wf ∧ (at8 8 [] 255 0).req.valIn < 2 ^ 8 ∧
    (∃ t p, exec .encu (at8 8 [] 255 0) = .next t ∧ t.resp = some p ∧ p.err = 0#2) ∧
    ∃ t p, exec .decs (at8 8 [0xFF, 0xFF] 0 0) = .next t ∧ t.resp = some p ∧ p.err = 0#2 :=
  ⟨by decide, by decide, ⟨_, _, rfl, rfl, rfl⟩, _, _, rfl, rfl, rfl⟩

theorem witness_DerivedConstants : 0 < 8 ∧ 6 < 8 ∧ groupsU 8 = 2 ∧ groupsS 8 = 1 := by decide

/-- Every other operand differs. -/
theorem witness_HiddenPrimitivesIgnoreOperands :
    Instr.isBitop .bset = true ∧ (hidden (onUnit 4 1)).params.bitopsExposed = false ∧
    ({ op := 9, valIn := 7, unitIn := 5, pos := 2, curIn := 0, len := 6 } : Ports).curIn = (hidden (onUnit 4 1)).req.curIn :=
  ⟨rfl, rfl, rfl⟩

end Sys2Proof.Tests
end

/-! ## 10_state.md: what each kind of operation leaves unchanged, and O45 -/

namespace Sys2Proof.Proofs

open Sys2Proof.Machine Sys2Proof.Claims

section Ends
variable {s t : State} {r : Result} {e : List Byte} {d : Except ReadStop (Nat × Nat)}

theorem onlyResponds_respond (s : State) (r : Result) : OnlyResponds s (s.respond r) :=
  ⟨⟨rfl, rfl, rfl⟩, ⟨rfl, fun _ => rfl⟩, rfl⟩

/-- The appended bytes are the only change to a canonical sequence (10_state.md R27). -/
theorem onlyAppends_respond_appendAll (hm : s.seq.wf) (e : List Byte) (r : Result) :
    OnlyAppends s ({ s with seq := s.seq.appendAll e }.respond r) e := by
  refine ⟨⟨rfl, rfl, rfl⟩, rfl, Memory.length_appendAll s.seq e,
    fun j _ => Memory.read_appendAll_new s.seq e hm j, fun a ha => ?_⟩
  rcases ha with hold | hbeyond
  · exact Memory.read_appendAll_old s.seq e hm a hold
  · have hnew : (s.seq.appendAll e).read a = none :=
      Memory.read_beyond _ (Memory.wf_appendAll s.seq e hm) a (by simpa using hbeyond)
    exact hnew.trans (Memory.read_beyond s.seq hm a (by omega)).symm

theorem onlyResponds_of_finishBitop (h : s.finishBitop r = .next t) : OnlyResponds s t := by
  rcases finishBitop_cases s r with ⟨-, heq⟩ | ⟨-, heq⟩ <;> cases heq.symm.trans h
  · exact onlyResponds_respond s r
  · exact onlyResponds_respond s (.error .illegalOp)

theorem onlyAppends_of_finishEncode (hm : s.seq.wf) (h : s.finishEncode e = .next t) : OnlyAppends s t e := by
  rcases finishEncode_cases s e with ⟨-, heq⟩ | ⟨-, heq⟩ <;> cases heq.symm.trans h
  exact onlyAppends_respond_appendAll hm e _

/-- A decode moves at most the cursor, whether it finds a value or raises `TruncatedInput`. -/
theorem onlyMovesCursorTo_of_finishDecode (h : s.finishDecode d = .next t) : OnlyMovesCursorTo s t t.cursor := by
  rcases finishDecode_cases s d with ⟨-, v, n, -, heq⟩ | ⟨-, -, heq⟩ | ⟨-, heq⟩ <;> cases heq.symm.trans h
  · exact ⟨⟨rfl, rfl, rfl⟩, ⟨rfl, fun _ => rfl⟩, rfl⟩
  · exact onlyResponds_respond s (.error .truncatedInput)

end Ends

section Kinds
variable {i : Instr} {s t : State}

theorem exec_bitop_onlyResponds (hi : i.isBitop = true) (h : exec i s = .next t) : OnlyResponds s t :=
  onlyResponds_of_finishBitop ((exec_bitop i s hi).symm.trans h)

theorem exec_encode_onlyAppends (hi : i.isEncode = true) (hm : s.seq.wf) (h : exec i s = .next t) :
    OnlyAppends s t (encodedBytes s i) :=
  onlyAppends_of_finishEncode hm ((exec_encode i s hi).symm.trans h)

theorem exec_decode_onlyMovesCursor (hi : i.isDecode = true) (h : exec i s = .next t) :
    OnlyMovesCursorTo s t t.cursor :=
  onlyMovesCursorTo_of_finishDecode ((exec_decode i s hi).symm.trans h)

end Kinds

/-- Settles O45: each kind of operation has a frame of its own, and the claim reads off the three frames. -/
theorem onlyEncodesAppendOnlyDecodesMoveCursor : Obligations.OnlyEncodesAppendOnlyDecodesMoveCursor := by
  intro i s t hm h
  rcases instr_kind_cases i with hi | hi | hi
  · obtain ⟨hinputs, hbytes, hcursor⟩ := exec_bitop_onlyResponds hi h
    exact ⟨hinputs, fun a _ => hbytes.2 a, fun _ => hbytes, fun _ => hcursor⟩
  · obtain ⟨hinputs, hcursor, -, -, hread⟩ := exec_encode_onlyAppends hi hm h
    exact ⟨hinputs, fun a ha => hread a (.inl ha), fun hne => by simp [hi] at hne, fun _ => hcursor⟩
  · obtain ⟨hinputs, hbytes, -⟩ := exec_decode_onlyMovesCursor hi h
    exact ⟨hinputs, fun a _ => hbytes.2 a, fun _ => hbytes, fun hnd => by simp [hi] at hnd⟩

end Sys2Proof.Proofs

/-! ## 40_bit_primitives.md: the bits of a result, what a primitive answers, and O12, O13 -/

namespace Sys2Proof.Proofs

open Sys2Proof.Machine Sys2Proof.Claims

section Bits
variable (u : Byte) (p : Pos)

theorem bitSet_eq_or_twoPow : bitSet u p = u ||| BitVec.twoPow 8 p.toNat := by
  rw [BitVec.twoPow_eq]; rfl

/-- `255 - (1 << p)` is the complement of bit `p`. -/
theorem bitClear_eq_and_not_twoPow : bitClear u p = u &&& ~~~BitVec.twoPow 8 p.toNat := by
  rw [BitVec.twoPow_eq, ← BitVec.allOnes_sub_eq_not]; rfl

/-- Every bit of BSET's function (R72). -/
theorem getLsbD_bitSet {q : Nat} (hq : q < 8) :
    (bitSet u p).getLsbD q = if q = p.toNat then true else u.getLsbD q := by
  rw [bitSet_eq_or_twoPow, BitVec.getLsbD_or, BitVec.getLsbD_twoPow]
  by_cases hqp : q = p.toNat
  · simp [← hqp, hq]
  · simp [hqp, Ne.symm hqp]

/-- Every bit of BCLR's function (R73). -/
theorem getLsbD_bitClear {q : Nat} (hq : q < 8) :
    (bitClear u p).getLsbD q = if q = p.toNat then false else u.getLsbD q := by
  rw [bitClear_eq_and_not_twoPow, BitVec.getLsbD_and, BitVec.getLsbD_not, BitVec.getLsbD_twoPow]
  by_cases hqp : q = p.toNat
  · simp [← hqp, hq]
  · simp [hqp, Ne.symm hqp, hq]

end Bits

section BitopAnswers
variable {i : Instr} {s : State}

theorem failsWith_raise (s : State) (e : ErrKind) : FailsWith s (s.raise e) e.code :=
  ⟨⟨_, State.raise_resp s e, rfl, rfl⟩, onlyResponds_respond s (.error e)⟩

theorem exec_bitop_exposed (hi : i.isBitop = true) (hx : s.params.bitopsExposed = true) :
    exec i s = .next (s.respond (bitopResult s i)) := by
  rcases finishBitop_cases s (bitopResult s i) with ⟨-, heq⟩ | ⟨hhidden, -⟩
  · exact (exec_bitop i s hi).trans heq
  · simp [hx] at hhidden

theorem exec_bitop_hidden (hi : i.isBitop = true) (hx : s.params.bitopsExposed = false) :
    exec i s = .next (s.raise .illegalOp) := by
  rcases finishBitop_cases s (bitopResult s i) with ⟨hexposed, -⟩ | ⟨-, heq⟩
  · simp [hx] at hexposed
  · exact (exec_bitop i s hi).trans heq

/-- Where the primitives are exposed, what is so of the response to a primitive's result is so of its answer. -/
theorem exec_bitop_answers {P : Response → Prop} (hi : i.isBitop = true) (hx : s.params.bitopsExposed = true)
    (hP : P (drivePorts s.params s.freeCount s.req.curIn (bitopResult s i))) :
    ∃ t, exec i s = .next t ∧ OnlyResponds s t ∧ Answers t P :=
  ⟨_, exec_bitop_exposed hi hx, onlyResponds_respond s _, _, State.respond_resp s _, hP⟩

theorem exec_bitop_failsWith (hi : i.isBitop = true) (hx : s.params.bitopsExposed = false) :
    ∃ t, exec i s = .next t ∧ FailsWith s t 2#2 :=
  ⟨_, exec_bitop_hidden hi hx, failsWith_raise s .illegalOp⟩

end BitopAnswers

/-- Settles O12: BSET's answer carries `bitSet` of the ports, whose bits `getLsbD_bitSet` gives. -/
theorem bsetSetsOneBit : Obligations.BsetSetsOneBit :=
  ⟨rfl, fun s =>
    ⟨fun hx => exec_bitop_answers rfl hx ⟨rfl, fun _ hq => getLsbD_bitSet s.req.unitIn s.req.pos hq⟩,
      fun hx => exec_bitop_failsWith rfl hx⟩⟩

/-- Settles O13: BCLR's answer carries `bitClear` of the ports, whose bits `getLsbD_bitClear` gives. -/
theorem bclrClearsOneBit : Obligations.BclrClearsOneBit :=
  ⟨rfl, fun s =>
    ⟨fun hx => exec_bitop_answers rfl hx ⟨rfl, fun _ hq => getLsbD_bitClear s.req.unitIn s.req.pos hq⟩,
      fun hx => exec_bitop_failsWith rfl hx⟩⟩

end Sys2Proof.Proofs

/-! ## 41_unsigned_varint.md: runs of bytes that stand in a sequence, what DECU makes of `enc_u`, and O39 -/

namespace Sys2Proof.Proofs

open Sys2Proof.Machine Sys2Proof.Claims

section Runs
variable {m : Memory} {c : Nat} {b : Byte} {bs : List Byte}

theorem standsAt_cons : StandsAt m c (b :: bs) ↔ m.read c = some b ∧ StandsAt m (c + 1) bs := by
  constructor
  · intro h
    refine ⟨h 0 (by simp), fun j hj => ?_⟩
    have hnext := h (j + 1) (by simpa using hj)
    rwa [List.getElem?_cons_succ, show c + (j + 1) = c + 1 + j by omega] at hnext
  · rintro ⟨hfirst, hrest⟩ (_ | j) hj
    · exact hfirst
    · rw [List.getElem?_cons_succ, show c + (j + 1) = c + 1 + j by omega]
      exact hrest j (by simpa using hj)

theorem byteRead_of_standsAt_cons {len : Nat} (hb : StandsAt m c (b :: bs)) (hl : c < len) :
    byteRead m len c = .ok b :=
  (byteRead_ok_iff m b len c).2 ⟨hl, (standsAt_cons.1 hb).1⟩

theorem standsAt_ofBytes (before bs after : List Byte) :
    StandsAt (Memory.ofBytes (before ++ bs ++ after)) before.length bs := by
  intro j hj
  rw [Memory.read_eq _ (Memory.wf_ofBytes _), Memory.bytes_ofBytes, List.append_assoc,
    List.getElem?_append_right (by omega), Nat.add_sub_cancel_left, List.getElem?_append_left hj]

end Runs

section Groups
variable {w : Nat} {m : Memory} {len i0 sh : Nat}

/-- The low group and the rest, each at its place, are the number: what one turn of `dec_groups` ORs together (R79). -/
theorem or_shiftLeft_groups (v k : Nat) : (v % 128) <<< k ||| (v / 128) <<< (k + 7) = v <<< k := by
  have hgroups : v % 128 ||| (v / 128) <<< 7 = v := by
    rw [Nat.or_comm, Nat.shiftLeft_eq, Nat.mul_comm, or_low_eq_add 7 _ _ (by omega)]
    omega
  rw [Nat.add_comm k 7, Nat.shiftLeft_add, ← Nat.shiftLeft_or_distrib, hgroups]

theorem truncW_or (a b : Nat) : truncW w (a ||| b) = truncW w a ||| truncW w b := Nat.or_mod_two_pow

/-- `dec_groups` on `enc_u(v)`, wherever it stands: it ORs `v` into the pattern at the current bit position and consumes
exactly these bytes. -/
theorem decGroupsFrom_encU {v left i r : Nat} (hs : StandsAt m (i0 + i) (encU v))
    (hl : i0 + i + (encU v).length ≤ len) (hleft : (encU v).length ≤ left) :
    decGroupsFrom w m len i0 sh left i r = .ok (r ||| truncW w (v <<< (sh + 7 * i)), i + (encU v).length) := by
  induction v using Nat.strong_induction_on generalizing left i r with
  | _ v ih =>
    obtain ⟨left, rfl⟩ : ∃ k, left = k + 1 := ⟨left - 1, by have := encU_length_pos v; omega⟩
    by_cases hv : v < 128
    · rw [encU_of_lt hv] at hs hl ⊢
      have hread := byteRead_of_standsAt_cons hs (len := len) (by simp at hl; omega)
      rw [decGroupsFrom_last hread (groupFlag_groupByte false v), payload_groupByte, Nat.mod_eq_of_lt hv,
        List.length_singleton]
    · rw [encU_of_ge (by omega)] at hs hl hleft ⊢
      rw [List.length_cons] at hl hleft
      have hread := byteRead_of_standsAt_cons hs (len := len) (by omega)
      have hrest := (standsAt_cons.1 hs).2
      rw [decGroupsFrom_more hread (groupFlag_groupByte true v), payload_groupByte,
        ih (v / 128) (by omega) hrest (by omega) (by omega), Nat.or_assoc, ← truncW_or,
        show sh + 7 * (i + 1) = sh + 7 * i + 7 by omega, or_shiftLeft_groups, List.length_cons,
        show i + 1 + (encU (v / 128)).length = i + ((encU (v / 128)).length + 1) by omega]

/-- DECU's function inverts `enc_u` on the `W`-bit numbers (R83): the bound `G_u` is enough and no bit is dropped. -/
theorem decU_encU {v c : Nat} (hw : 0 < w) (hv : v < 2 ^ w) (hs : StandsAt m c (encU v))
    (hl : c + (encU v).length ≤ len) : decU w m len c = .ok (v, (encU v).length) := by
  rw [decU, decGroups, decGroupsFrom_encU hs hl (encU_length_le hv hw)]
  simp [truncW, Nat.mod_eq_of_lt hv]

end Groups

theorem finishDecode_ok {s : State} {v n : Nat} (hl : s.lenHonest) : s.finishDecode (.ok (v, n)) =
    .next ({ s with cursor := s.req.curIn + n }.respond (.decoded v (s.req.curIn + n) n)) := if_pos hl

/-- What a decode that finds a value answers: the response ports of R23, and the cursor one past the last byte. -/
theorem exec_decode_answers {i : Instr} {s : State} {v n : Nat} (hi : i.isDecode = true) (hl : s.lenHonest)
    (hd : decodedResult s i = .ok (v, n)) :
    ∃ t, exec i s = .next t ∧ OnlyMovesCursorTo s t (s.req.curIn + n) ∧ Decoded t v (s.req.curIn + n) n := by
  have hexec := exec_decode i s hi
  rw [hd, finishDecode_ok hl] at hexec
  exact ⟨_, hexec, ⟨⟨rfl, rfl, rfl⟩, ⟨rfl, fun _ => rfl⟩, rfl⟩, _, State.respond_resp _ _, rfl, rfl, rfl, rfl⟩

/-- Settles O39: the bytes of `enc_u(v)` stand at the cursor, DECU's function inverts them, and the answer carries what
it finds. -/
theorem unsignedRoundTrip : Obligations.UnsignedRoundTrip := by
  intro s v before after hp hv hseq hcur hlen
  have hs : StandsAt s.seq s.req.curIn (encU v) := by
    rw [hseq, hcur]
    exact standsAt_ofBytes before (encU v) after
  have hfits : s.req.curIn + (encU v).length ≤ s.req.len := by
    rw [hlen, hseq, hcur, Memory.length_ofBytes]
    simp
  have hd : decodedResult s .decu = .ok (v, (encU v).length) := decU_encU (by omega) hv hs hfits
  rw [← hcur]
  exact exec_decode_answers rfl hlen.le hd

end Sys2Proof.Proofs

/-! ## 42_signed_varint.md: sign, magnitude and the bytes of `enc_s(v)`, and O23, O25 -/

namespace Sys2Proof.Proofs

open Sys2Proof.Machine Sys2Proof.Claims

section SignedValues
variable {w : Nat} {v : Int}

/-- The signed `W`-bit range, read off the absolute value: only a negative value reaches `2^(W-1)`. -/
theorem natAbs_lt_or_neg_natAbs_le (hlo : -2 ^ (w - 1) ≤ v) (hhi : v < 2 ^ (w - 1)) :
    (0 ≤ v ∧ v.natAbs < 2 ^ (w - 1)) ∨ (v < 0 ∧ v.natAbs ≤ 2 ^ (w - 1)) := by
  have hcast : ((2 ^ (w - 1) : Nat) : Int) = 2 ^ (w - 1) := by simp
  omega

theorem bitsW_of_nonneg (hv : 0 ≤ v) (hhi : v.natAbs < 2 ^ w) : bitsW w v = v.natAbs := by
  have hcast : ((2 ^ w : Nat) : Int) = 2 ^ w := by simp
  rw [bitsW, Int.emod_eq_of_lt hv (by omega)]
  omega

/-- Two's complement: the pattern of a negative value lies `abs(v)` below `2^W` (00_scope.md R16). -/
theorem bitsW_of_neg (hv : v < 0) (hlo : v.natAbs ≤ 2 ^ w) : bitsW w v = 2 ^ w - v.natAbs := by
  have hcast : ((2 ^ w : Nat) : Int) = 2 ^ w := by simp
  rw [bitsW, ← Int.add_emod_right, Int.emod_eq_of_lt (by omega) (by omega)]
  omega

/-- The sign bit splits the `W`-bit patterns in halves. -/
theorem signOf_eq_decide {u : Nat} (hw : 0 < w) (hu : u < 2 ^ w) : signOf w u = decide (2 ^ (w - 1) ≤ u) := by
  have hhalf := Nat.two_pow_pred_add_two_pow_pred hw
  by_cases h : 2 ^ (w - 1) ≤ u
  · have hone : u / 2 ^ (w - 1) = 1 := Nat.div_eq_of_lt_le (by omega) (by omega)
    simp [signOf, Nat.testBit_eq_decide_div_mod_eq, hone, h]
  · rw [signOf, Nat.testBit_lt_two_pow (by omega), decide_eq_false h]

variable (hw : 0 < w) (hlo : -2 ^ (w - 1) ≤ v) (hhi : v < 2 ^ (w - 1))
include hw hlo hhi

theorem signOf_bitsW : signOf w (bitsW w v) = decide (v < 0) := by
  have hhalf := Nat.two_pow_pred_add_two_pow_pred hw
  rcases natAbs_lt_or_neg_natAbs_le hlo hhi with ⟨hv, habs⟩ | ⟨hv, habs⟩
  · rw [bitsW_of_nonneg hv (by omega), signOf_eq_decide hw (by omega), decide_eq_decide]
    omega
  · rw [bitsW_of_neg hv (by omega), signOf_eq_decide hw (by omega), decide_eq_decide]
    omega

/-- The magnitude of the pattern is the absolute value, at the minimum too (R86). -/
theorem magnitude_bitsW : magnitude w (bitsW w v) = v.natAbs := by
  have hhalf := Nat.two_pow_pred_add_two_pow_pred hw
  rw [magnitude, signOf_bitsW hw hlo hhi]
  rcases natAbs_lt_or_neg_natAbs_le hlo hhi with ⟨hv, habs⟩ | ⟨hv, habs⟩
  · rw [if_neg (by simpa using hv), bitsW_of_nonneg hv (by omega)]
  · rw [if_pos (by simpa using hv), bitsW_of_neg hv (by omega), negW, Nat.mod_eq_of_lt (by omega)]
    omega

end SignedValues

section FirstByte
variable (sign more : Bool) (low : Nat)

/-- A first byte takes the six low bits only. -/
theorem firstByte_and_low : firstByte sign more (low &&& 0x3F) = firstByte sign more low := by
  rw [firstByte, firstByte, Nat.and_assoc, Nat.and_self]

theorem firstByte_eq_ofNat : firstByte sign more low =
    BitVec.ofNat 8 ((if sign then 128 else 0) + (if more then 64 else 0) + low % 64) := by
  rw [← firstByte_toNat, BitVec.ofNat_toNat, BitVec.setWidth_eq]

/-- The sign flag is bit 7, put on by an OR (30_encoding.md R52). -/
theorem firstByte_true_eq_or : firstByte true more low = firstByte false more low ||| 0x80#8 := by
  apply BitVec.eq_of_toNat_eq
  have hrest : (firstByte false more low).toNat < 2 ^ 7 := by
    rw [firstByte_toNat]
    cases more <;> simp <;> omega
  rw [BitVec.toNat_or, Nat.or_comm]
  refine Eq.trans ?_ (or_low_eq_add 7 1 _ hrest).symm
  simp [firstByte_toNat, Nat.add_assoc]

theorem firstByte_ne_negative_zero (h : sign = true → more = false → low % 64 ≠ 0) :
    firstByte sign more low ≠ 0x80#8 := by
  intro heq
  have hnat : (firstByte sign more low).toNat = 128 := by rw [heq]; rfl
  rw [firstByte_toNat] at hnat
  cases sign <;> cases more <;> simp at h hnat <;> omega

end FirstByte

/-- `enc_s` on a signed value: the first byte from sign and absolute value, and what does not fit it (R87). -/
theorem encS_bitsW {w : Nat} {v : Int} (hw : 0 < w) (hlo : -2 ^ (w - 1) ≤ v) (hhi : v < 2 ^ (w - 1)) :
    encS w (bitsW w v) = firstByte (v < 0) (63 < v.natAbs) v.natAbs ::
      if v.natAbs ≤ 63 then [] else encU (v.natAbs / 64) := by
  have hrem : v.natAbs >>> 6 = v.natAbs / 64 := Nat.shiftRight_eq_div_pow _ 6
  simp only [encS, signOf_bitsW hw hlo hhi, magnitude_bitsW hw hlo hhi, firstByte_and_low, hrem]
  by_cases h : v.natAbs ≤ 63
  · rw [if_pos (by omega), if_pos h, decide_eq_false (show ¬ 63 < v.natAbs by omega)]
  · rw [if_neg (by omega), if_neg h, decide_eq_true (show 63 < v.natAbs by omega)]

/-- The last group of a number that is not 0 is not 0: the flag on an earlier byte is never for nothing (R57). -/
theorem getLast?_encU_ne_zero {v : Nat} (hv : v ≠ 0) : (encU v).getLast? ≠ some 0x00#8 := by
  induction v using Nat.strong_induction_on with
  | _ v ih =>
    by_cases h : v < 128
    · rw [encU_of_lt h, List.getLast?_singleton, ne_eq, Option.some_inj]
      intro hzero
      have hpayload := payload_groupByte false v
      rw [hzero, show payload 0x00#8 = 0 by decide] at hpayload
      omega
    · rw [encU_of_ge (by omega), List.getLast?_cons_of_ne_nil (encU_ne_nil _)]
      exact ih (v / 128) (by omega) (by omega)

/-- What is left of a magnitude after six bits takes at most `G_s` groups (R91). -/
theorem encU_div_length_le_groupsS {w a : Nat} (hw : 8 ≤ w) (ha : a ≤ 2 ^ (w - 1)) :
    (encU (a / 64)).length ≤ groupsS w := by
  have hpow : 2 ^ w = 64 * 2 ^ (w - 6) := by rw [show 64 = 2 ^ 6 from rfl, ← pow_add, Nat.add_sub_cancel' (by omega)]
  have hpos : 0 < 2 ^ (w - 6) := by positivity
  have hhalf := Nat.two_pow_pred_add_two_pow_pred (show 0 < w by omega)
  exact encU_length_le (w := w - 6) (by omega) (by omega)

/-- Settles O23: `encS_bitsW` gives the bytes; the clauses on the rest are facts about `enc_u` of a number that is not 0
and has at most `W - 6` bits, and a negative value has a magnitude bit in its first byte or the flag that more follow. -/
theorem signedEncodingBytes : Obligations.SignedEncodingBytes := by
  intro w v hw hlo hhi
  rw [encS_bitsW (by omega) hlo hhi]
  refine ⟨?_, fun hbig => ⟨encU_length_pos _, encU_div_length_le_groupsS hw ?_, getLast?_encU_ne_zero (by omega)⟩, ?_⟩
  · rw [firstByte_eq_ofNat]
    by_cases h : v.natAbs ≤ 63
    · simp [h, Nat.mod_eq_of_lt (show v.natAbs < 64 by omega), show ¬ 63 < v.natAbs by omega]
    · simp [h, show 63 < v.natAbs by omega]
  · rcases natAbs_lt_or_neg_natAbs_le hlo hhi with ⟨-, habs⟩ | ⟨-, habs⟩ <;> omega
  · rw [List.head?_cons, ne_eq, Option.some_inj]
    refine firstByte_ne_negative_zero _ _ _ fun hneg hfits => ?_
    rw [decide_eq_true_eq] at hneg
    rw [decide_eq_false_iff_not] at hfits
    omega

/-- Settles O25: `v` and `-v` have one absolute value, so `encS_bitsW` gives both the same bytes but for the sign flag. -/
theorem signFidelity : Obligations.SignFidelity := by
  intro w v hw hpos hmax
  have hneg := encS_bitsW (w := w) (v := -v) (by omega) (by omega) (by omega)
  rw [Int.natAbs_neg, decide_eq_true (show -v < 0 by omega), firstByte_true_eq_or] at hneg
  have hbytes := encS_bitsW (w := w) (v := v) (by omega) (by omega) (by omega)
  rw [decide_eq_false (show ¬ v < 0 by omega)] at hbytes
  exact ⟨_, _, hbytes, (signFlag_eq _).symm.trans (signFlag_firstByte false _ _), hneg⟩

end Sys2Proof.Proofs

/-! ## 43_generic_dispatch.md: a generic entry point is the operation its code names, when an operation completes, and
O17, O30 -/

namespace Sys2Proof.Proofs

open Sys2Proof.Machine Sys2Proof.Claims

section Dispatch
variable {i : Instr} {s : State}

/-- A pseudo-operation does what the operation of its code does (R98, R99, 30_encoding.md R69). -/
theorem exec_expand (i : Instr) (s : State) : exec i.expand s = exec i s := by
  cases i with
  | encGen sgn => cases sgn <;> rfl
  | decGen sgn => cases sgn <;> rfl
  | _ => rfl

/-- The bytes of ENC.s are chosen by the declared signedness alone. -/
theorem encodedBytes_encGen (s : State) (sgn : Bool) :
    encodedBytes s (.encGen sgn) = encBytes s.params.w sgn s.req.valIn := by
  cases sgn <;> rfl

theorem finishEncode_room {e : List Byte} (hr : s.roomFor e.length) : s.finishEncode e =
    .next ({ s with seq := s.seq.appendAll e }.respond (.encoded e.length)) := if_pos hr

/-- What an encode with room for its bytes answers: the bytes at the end of a canonical sequence, and their number on
`nbytes`. -/
theorem exec_encode_answers (hi : i.isEncode = true) (hm : s.seq.wf) (hr : s.roomFor (encodedBytes s i).length) :
    ∃ t, exec i s = .next t ∧ OnlyAppends s t (encodedBytes s i) ∧ Encoded t (encodedBytes s i).length :=
  ⟨_, (exec_encode i s hi).trans (finishEncode_room hr), onlyAppends_respond_appendAll hm _ _,
    _, State.respond_resp _ _, rfl, rfl⟩

/-- With an honest `len` on a canonical sequence a decode finds a value or raises `TruncatedInput`: either way it
answers a next state. -/
theorem exec_decode_completes (hi : i.isDecode = true) (hm : s.seq.wf) (hl : s.lenHonest) :
    ∃ t, exec i s = .next t := by
  rw [exec_decode i s hi]
  rcases finishDecode_cases s (decodedResult s i) with ⟨-, v, n, -, heq⟩ | ⟨-, -, heq⟩ | ⟨hstop, -⟩
  · exact ⟨_, heq⟩
  · exact ⟨_, heq⟩
  · rcases hstop with hlen | habsent
    · exact absurd hl hlen
    · exact absurd habsent (decodedResult_ne_absent hi hm hl)

end Dispatch

/-- Settles O17: ENC.s is the operation of its code by `exec_expand`, and it completes as every encode with room does;
the pattern 0xFF with `W` = 8 is evaluated. -/
theorem encGenFollowsDeclaredSignedness : Obligations.EncGenFollowsDeclaredSignedness := by
  refine ⟨by decide, fun s => ⟨(exec_expand (.encGen false) s).symm, (exec_expand (.encGen true) s).symm⟩,
    fun sgn s hm hr => ?_, by decide, by decide⟩
  rw [← encodedBytes_encGen] at hr ⊢
  exact exec_encode_answers rfl hm hr

/-- Settles O30: DEC.s is the operation of its code by `exec_expand`, it completes as every decode with an honest `len`
does, and a decode's frame keeps inputs and sequence; the byte 0x81 with `W` = 8 is evaluated. -/
theorem decGenFollowsDeclaredSignedness : Obligations.DecGenFollowsDeclaredSignedness := by
  refine ⟨by decide, fun s => ⟨(exec_expand (.decGen false) s).symm, (exec_expand (.decGen true) s).symm⟩,
    fun sgn s hm hl => ?_, by decide, by decide⟩
  obtain ⟨t, ht⟩ := exec_decode_completes (i := .decGen sgn) rfl hm hl
  obtain ⟨hinputs, hbytes, -⟩ := exec_decode_onlyMovesCursor rfl ht
  exact ⟨t, ht, hinputs, hbytes⟩

end Sys2Proof.Proofs

/-! ## 30_encoding.md sections 5 and 6: the operation-select code in both directions, and O10, O9 -/

namespace Sys2Proof.Proofs

open Sys2Proof.Machine Sys2Proof.Claims

/-- The decoder reads every operation's code as the operation it stands for (R65, R69). -/
theorem decodeOp_encode (i : Instr) : decodeOp (encode i) = .ok i.expand := by
  cases i with
  | encGen sgn => cases sgn <;> rfl
  | decGen sgn => cases sgn <;> rfl
  | _ => rfl

/-- The decoder answers no operation but that of its row, and never a pseudo-operation. -/
theorem encode_of_decodeOp {op : OpCode} {i : Instr} (h : decodeOp op = .ok i) : encode i = op ∧ i.expand = i := by
  rcases decodeOp_rows op with ⟨rfl, hd⟩ | ⟨rfl, hd⟩ | ⟨rfl, hd⟩ | ⟨rfl, hd⟩ | ⟨rfl, hd⟩ | ⟨rfl, hd⟩ | ⟨rfl, hd⟩ |
      ⟨rfl, hd⟩ | ⟨-, hd⟩ <;> cases hd.symm.trans h
  all_goals exact ⟨rfl, rfl⟩

/-- Settles O10: the decoder row by row in one direction, operation by operation in the other. -/
theorem decodeAndEncodeAgree : Obligations.DecodeAndEncodeAgree :=
  ⟨decodeOp_encode, fun _ _ => encode_of_decodeOp, by decide⟩

/-- Settles O9: the sixteen words of the table are evaluated. -/
theorem tableWordsDecode : Obligations.TableWordsDecode := by
  unfold Obligations.TableWordsDecode
  decide

end Sys2Proof.Proofs

/-! ## What an operation that answered a next state did, read off its response, and O43 -/

namespace Sys2Proof.Proofs

open Sys2Proof.Machine Sys2Proof.Claims

section Answered
variable {i : Instr} {s t : State} {p : Response}

/-- The state after an OK decode of `v` from `n` bytes (10_state.md R25, R26). -/
def afterDecode (s : State) (v n : Nat) : State :=
  { s with cursor := s.req.curIn + n }.respond (.decoded v (s.req.curIn + n) n)

/-- The state after an encode that appended `e` (10_state.md R27). -/
def afterEncode (s : State) (e : List Byte) : State :=
  { s with seq := s.seq.appendAll e }.respond (.encoded e.length)

theorem exec_encode_next_cases (hi : i.isEncode = true) (h : exec i s = .next t) :
    s.roomFor (encodedBytes s i).length ∧ t = afterEncode s (encodedBytes s i) := by
  rw [exec_encode i s hi] at h
  rcases finishEncode_cases s (encodedBytes s i) with ⟨hroom, heq⟩ | ⟨-, heq⟩ <;> cases heq.symm.trans h
  exact ⟨hroom, rfl⟩

theorem exec_decode_next_cases (hi : i.isDecode = true) (h : exec i s = .next t) :
    s.lenHonest ∧ ((∃ v n, decodedResult s i = .ok (v, n) ∧ t = afterDecode s v n) ∨
      (decodedResult s i = .error .truncated ∧ t = s.raise .truncatedInput)) := by
  rw [exec_decode i s hi] at h
  rcases finishDecode_cases s (decodedResult s i) with ⟨hl, v, n, hd, heq⟩ | ⟨hl, hd, heq⟩ | ⟨-, heq⟩ <;>
    cases heq.symm.trans h
  · exact ⟨hl, .inl ⟨v, n, hd, rfl⟩⟩
  · exact ⟨hl, .inr ⟨hd, rfl⟩⟩

theorem exec_decode_of_ok {v n : Nat} (hi : i.isDecode = true) (hl : s.lenHonest)
    (hd : decodedResult s i = .ok (v, n)) : exec i s = .next (afterDecode s v n) := by
  rw [exec_decode i s hi, hd]
  exact finishDecode_ok hl

theorem exec_decode_of_truncated (hi : i.isDecode = true) (hl : s.lenHonest)
    (hd : decodedResult s i = .error .truncated) : exec i s = .next (s.raise .truncatedInput) := by
  rw [exec_decode i s hi, hd]
  exact if_pos hl

/-- An OK response of a decode carries the value and the count that the decode found. -/
theorem exec_decode_ok_cases (hi : i.isDecode = true) (h : exec i s = .next t) (hp : t.resp = some p)
    (herr : p.err = 0#2) :
    s.lenHonest ∧ ∃ v n, decodedResult s i = .ok (v, n) ∧ t = afterDecode s v n ∧
      p.valOut = v ∧ p.curOut = s.req.curIn + n ∧ p.nbytes = n := by
  obtain ⟨hl, ⟨v, n, hd, rfl⟩ | ⟨-, rfl⟩⟩ := exec_decode_next_cases hi h
  · cases hp
    exact ⟨hl, v, n, hd, rfl, rfl, rfl, rfl⟩
  · cases hp
    cases herr

/-- An error response comes from a primitive that is not exposed or from a decode that runs out of bytes, and each is
raised (60_exceptions.md R108). -/
theorem exec_error_cases (h : exec i s = .next t) (hp : t.resp = some p) (herr : p.err ≠ 0#2) :
    (i.isBitop = true ∧ s.params.bitopsExposed = false ∧ p.err = 2#2 ∧ t = s.raise .illegalOp) ∨
    (i.isDecode = true ∧ p.err = 1#2 ∧ t = s.raise .truncatedInput) := by
  rcases exec_next_cases h with ⟨-, -, ⟨b, hb⟩ | ⟨u, hu⟩, rfl⟩ | ⟨hi, hx, rfl⟩ | ⟨-, -, rfl⟩ | ⟨-, -, v, n, -, rfl⟩ |
      ⟨hi, -, -, rfl⟩ <;> cases hp
  · simp [hb] at herr
  · simp [hu] at herr
  · exact .inl ⟨hi, hx, rfl, rfl⟩
  · simp at herr
  · simp at herr
  · exact .inr ⟨hi, rfl, rfl⟩

end Answered

/-- Settles O43: whatever is raised keeps everything but the response. -/
theorem errorResponseKeepsEverything : Obligations.ErrorResponseKeepsEverything := by
  intro i s t p h hp herr
  rcases exec_error_cases h hp herr with ⟨-, -, -, rfl⟩ | ⟨-, -, rfl⟩ <;> cases hp <;>
    exact ⟨onlyResponds_respond s _, rfl⟩

end Sys2Proof.Proofs

/-! ## 41_unsigned_varint.md and 42_signed_varint.md section 2: what an encode appends and where it stops, and O15, O16,
O18, O46 -/

namespace Sys2Proof.Proofs

open Sys2Proof.Machine Sys2Proof.Claims

/-- Settles O15: ENCU is an encode of `enc_u(val_in)`. -/
theorem encuAppendsItsBytes : Obligations.EncuAppendsItsBytes := fun _ hm hroom =>
  exec_encode_answers (i := .encu) rfl hm hroom

/-- Settles O16: ENCS is an encode of `enc_s` of the value on `val_in`. -/
theorem encsAppendsItsBytes : Obligations.EncsAppendsItsBytes := fun _ hm hroom =>
  exec_encode_answers (i := .encs) rfl hm hroom

/-- An encode stops exactly where its bytes have no room. -/
theorem exec_encode_refused_iff {i : Instr} {s : State} (hi : i.isEncode = true) :
    exec i s = .refused .sequenceFull ↔ ¬ s.roomFor (encodedBytes s i).length := by
  rw [exec_encode i s hi]
  rcases finishEncode_cases s (encodedBytes s i) with ⟨hroom, heq⟩ | ⟨hroom, heq⟩ <;> simp [heq, hroom]

/-- Settles O18: ENCU, ENCS and ENC.s are encodes. -/
theorem encodeRefusedExactlyWithoutRoom : Obligations.EncodeRefusedExactlyWithoutRoom := by
  intro s sgn
  rw [← encodedBytes_encGen]
  exact ⟨exec_encode_refused_iff rfl, exec_encode_refused_iff rfl, exec_encode_refused_iff rfl⟩

/-- The bytes of an encode come from `W` and `val_in` alone. -/
theorem encodedBytes_congr {i : Instr} {s s' : State} (hw : s'.params.w = s.params.w)
    (hv : s'.req.valIn = s.req.valIn) : encodedBytes s' i = encodedBytes s i := by
  cases i with
  | encGen sgn => cases sgn <;> simp [encodedBytes, hw, hv]
  | _ => simp [encodedBytes, hw, hv]

/-- Settles O46: both encodes append the same `encodedBytes`. -/
theorem encodeIgnoresTheSequence : Obligations.EncodeIgnoresTheSequence := by
  intro i s s' t t' hi hparams hval h h'
  obtain ⟨-, rfl⟩ := exec_encode_next_cases hi h
  obtain ⟨-, rfl⟩ := exec_encode_next_cases hi h'
  rw [encodedBytes_congr (by rw [hparams]) hval]
  exact ⟨_, rfl, rfl, ⟨_, rfl, rfl, rfl⟩, _, rfl, rfl, rfl⟩

end Sys2Proof.Proofs

/-! ## 70_reset_and_hazards.md section 2: where a decode stops, and O31 -/

namespace Sys2Proof.Proofs

open Sys2Proof.Machine Sys2Proof.Claims

/-- On a canonical sequence a decode stops exactly where `len` is beyond the true length. -/
theorem exec_decode_refused_iff {i : Instr} {s : State} (hi : i.isDecode = true) (hm : s.seq.wf) :
    exec i s = .refused .lenBeyondSequence ↔ s.seq.length < s.req.len := by
  rw [← not_le]
  constructor
  · intro hstop hl
    obtain ⟨t, ht⟩ := exec_decode_completes hi hm hl
    cases hstop.symm.trans ht
  · intro hl
    rw [exec_decode i s hi]
    exact if_neg hl

/-- Settles O31: DECU, DECS and DEC.s are decodes. -/
theorem decodeRefusedExactlyForTooLargeLen : Obligations.DecodeRefusedExactlyForTooLargeLen := fun _ _ hm =>
  ⟨exec_decode_refused_iff rfl hm, exec_decode_refused_iff rfl hm, exec_decode_refused_iff rfl hm⟩

end Sys2Proof.Proofs

/-! ## 10_state.md section 4: the operands that an operation uses, and O2, O47, O51 -/

namespace Sys2Proof.Proofs

open Sys2Proof.Machine Sys2Proof.Claims

/-- A decode's finding is that of DECU's function or of DECS's, the same one on every state. -/
theorem decodedResult_kind_cases (i : Instr) :
    (∀ s, decodedResult s i = decU s.params.w s.seq s.req.len s.req.curIn) ∨
      (∀ s, decodedResult s i = decS s.params.w s.seq s.req.len s.req.curIn) ∨
        ∀ s, decodedResult s i = .error .absent := by
  cases i with
  | decu => exact .inl fun _ => rfl
  | decs => exact .inr (.inl fun _ => rfl)
  | decGen sgn =>
    cases sgn with
    | false => exact .inl fun _ => rfl
    | true => exact .inr (.inl fun _ => rfl)
  | _ => exact .inr (.inr fun _ => rfl)

/-- A decode's finding comes from `W`, the sequence, `len` and `cur_in` alone. -/
theorem decodedResult_congr {i : Instr} {s s' : State} (hw : s'.params.w = s.params.w) (hm : s'.seq = s.seq)
    (hl : s'.req.len = s.req.len) (hc : s'.req.curIn = s.req.curIn) : decodedResult s' i = decodedResult s i := by
  rcases decodedResult_kind_cases i with h | h | h <;> simp only [h, hw, hm, hl, hc]

/-- A primitive's result comes from `unit_in` and `pos` alone. -/
theorem bitopResult_congr {i : Instr} {s s' : State} (hu : s'.req.unitIn = s.req.unitIn) (hp : s'.req.pos = s.req.pos) :
    bitopResult s' i = bitopResult s i := by
  cases i <;> simp [bitopResult, hu, hp]

/-- Other request ports show in the response only as `cur_out` of an error response (60_exceptions.md R106). -/
theorem respond_withPorts {s : State} {q : Ports} {r : Result} (h : q.curIn = s.req.curIn ∨ ∀ e, r ≠ .error e) :
    State.respond { s with req := q } r = { s.respond r with req := q } := by
  rcases h with hc | hr
  · simp [State.respond, hc]
  · cases r with
    | error e => exact absurd rfl (hr e)
    | _ => rfl

/-- Settles O51: a primitive that is not exposed raises `IllegalOp`, whatever the ports carry. -/
theorem hiddenPrimitivesIgnoreOperands : Obligations.HiddenPrimitivesIgnoreOperands := by
  intro i s q hi hx hc
  refine ⟨_, exec_bitop_hidden hi hx, failsWith_raise s .illegalOp, ?_⟩
  rw [exec_bitop_hidden (s := { s with req := q }) hi hx, State.raise_eq, respond_withPorts (.inl hc)]
  rfl

/-- Settles O47: each kind of operation reads its own operands only. -/
theorem unusedOperandsAreIgnored : Obligations.UnusedOperandsAreIgnored := by
  intro i s t q h hbit henc hdec
  rcases exec_next_cases h with ⟨hi, hx, hres, rfl⟩ | ⟨hi, hx, -⟩ | ⟨hi, hroom, rfl⟩ | ⟨hi, hl, v, n, hd, rfl⟩ |
      ⟨hi, hl, hd, rfl⟩
  · obtain ⟨-, hunit, hpos⟩ := hbit hi
    rw [exec_bitop_exposed (s := { s with req := q }) hi hx, bitopResult_congr (s := s) hunit hpos, respond_withPorts]
    rcases hres with ⟨b, hb⟩ | ⟨u, hu⟩
    · exact .inr fun e => by simp [hb]
    · exact .inr fun e => by simp [hu]
  · simp [(hbit hi).1] at hx
  · have hbytes : encodedBytes { s with req := q } i = encodedBytes s i := encodedBytes_congr rfl (henc hi)
    rw [exec_encode i { s with req := q } hi, hbytes, finishEncode_room (s := { s with req := q }) hroom]
    rfl
  · obtain ⟨hc, hlen⟩ := hdec hi
    have hl' : State.lenHonest { s with req := q } := hlen.trans_le hl
    have hsame : decodedResult { s with req := q } i = decodedResult s i := decodedResult_congr rfl rfl hlen hc
    rw [exec_decode_of_ok hi hl' (hsame.trans hd), afterDecode, hc]
    rfl
  · obtain ⟨hc, hlen⟩ := hdec hi
    have hl' : State.lenHonest { s with req := q } := hlen.trans_le hl
    have hsame : decodedResult { s with req := q } i = decodedResult s i := decodedResult_congr rfl rfl hlen hc
    rw [exec_decode_of_truncated hi hl' (hsame.trans hd), State.raise_eq, respond_withPorts (.inl hc)]
    rfl

/-- Settles O2: a reset takes the response only, and no operation looks at it. -/
theorem blockResetIsInvisible : Obligations.BlockResetIsInvisible := by
  refine ⟨fun s rest hp => ⟨{ s with pending := rest }.blockReset, ?_, rfl, ⟨rfl, fun _ => rfl⟩, rfl, rfl, rfl⟩,
    fun i s => ?_⟩
  · rw [step, State.takeInput, hp]
  · cases i with
    | encGen sgn => cases sgn <;> rfl
    | decGen sgn => cases sgn <;> rfl
    | _ => rfl

end Sys2Proof.Proofs

/-! ## 00_scope.md section 4 and 42_signed_varint.md section 1: patterns and signed values, and O21, O22 -/

namespace Sys2Proof.Proofs

open Sys2Proof.Machine Sys2Proof.Claims

section Patterns
variable {w : Nat}

theorem bitsW_lt (v : Int) : bitsW w v < 2 ^ w := by
  have hpos : (0 : Int) < 2 ^ w := by positivity
  have hcast : ((2 ^ w : Nat) : Int) = 2 ^ w := by simp
  have hlo := Int.emod_nonneg v hpos.ne'
  have hhi := Int.emod_lt_of_pos v hpos
  rw [bitsW]
  omega

/-- `signed_W` takes `2^W` off exactly the upper half of the patterns (00_scope.md R16). -/
theorem signedW_eq {u : Nat} (hw : 0 < w) (hu : u < 2 ^ w) :
    signedW w u = if 2 ^ (w - 1) ≤ u then (u : Int) - 2 ^ w else u := by
  have hsign := signOf_eq_decide hw hu
  rw [signOf] at hsign
  simp only [signedW, hsign, decide_eq_true_eq]

theorem signedW_range {u : Nat} (hw : 0 < w) (hu : u < 2 ^ w) :
    -2 ^ (w - 1) ≤ signedW w u ∧ signedW w u < 2 ^ (w - 1) := by
  have hhalf := Nat.two_pow_pred_add_two_pow_pred hw
  have hcast : ((2 ^ w : Nat) : Int) = 2 ^ w := by simp
  have hcast' : ((2 ^ (w - 1) : Nat) : Int) = 2 ^ (w - 1) := by simp
  rw [signedW_eq hw hu]
  split <;> omega

theorem bitsW_signedW {u : Nat} (hw : 0 < w) (hu : u < 2 ^ w) : bitsW w (signedW w u) = u := by
  have hcast : ((2 ^ w : Nat) : Int) = 2 ^ w := by simp
  rw [signedW_eq hw hu]
  split
  · rw [bitsW_of_neg (by omega) (by omega)]
    omega
  · rw [bitsW_of_nonneg (by omega) (by omega)]
    omega

theorem signedW_bitsW {v : Int} (hw : 0 < w) (hlo : -2 ^ (w - 1) ≤ v) (hhi : v < 2 ^ (w - 1)) :
    signedW w (bitsW w v) = v := by
  have hhalf := Nat.two_pow_pred_add_two_pow_pred hw
  have hcast : ((2 ^ w : Nat) : Int) = 2 ^ w := by simp
  rw [signedW_eq hw (bitsW_lt v)]
  rcases natAbs_lt_or_neg_natAbs_le hlo hhi with ⟨hv, habs⟩ | ⟨hv, habs⟩
  · rw [bitsW_of_nonneg hv (by omega), if_neg (by omega)]
    omega
  · rw [bitsW_of_neg hv (by omega), if_pos (by omega)]
    omega

/-- Every pattern is that of the signed value it stands for, so that what is so of the signed values is so of it. -/
theorem exists_signed_of_lt {u : Nat} (hw : 0 < w) (hu : u < 2 ^ w) :
    ∃ v : Int, -2 ^ (w - 1) ≤ v ∧ v < 2 ^ (w - 1) ∧ bitsW w v = u :=
  ⟨signedW w u, (signedW_range hw hu).1, (signedW_range hw hu).2, bitsW_signedW hw hu⟩

theorem natAbs_le_half {v : Int} (hlo : -2 ^ (w - 1) ≤ v) (hhi : v < 2 ^ (w - 1)) : v.natAbs ≤ 2 ^ (w - 1) := by
  rcases natAbs_lt_or_neg_natAbs_le hlo hhi with ⟨-, habs⟩ | ⟨-, habs⟩
  · exact habs.le
  · exact habs

end Patterns

/-- Settles O21: `bits_W` and `signed_W` invert each other, and each lands in the other's range. -/
theorem twosComplementPatternsAreInverse : Obligations.TwosComplementPatternsAreInverse := fun _ hw =>
  ⟨fun v hlo hhi => ⟨bitsW_lt v, signedW_bitsW hw hlo hhi⟩,
    fun _ hu => ⟨(signedW_range hw hu).1, (signedW_range hw hu).2, bitsW_signedW hw hu⟩⟩

/-- Settles O22: the sign and the magnitude of a pattern are those of the value it stands for. -/
theorem signAndMagnitudeOfEveryValue : Obligations.SignAndMagnitudeOfEveryValue := by
  intro w v hw hlo hhi
  rw [signOf_bitsW hw hlo hhi, magnitude_bitsW hw hlo hhi, decide_eq_true_eq]
  exact ⟨Iff.rfl, rfl, natAbs_le_half hlo hhi⟩

end Sys2Proof.Proofs

/-! ## 30_encoding.md section 3, 41_unsigned_varint.md and 42_signed_varint.md section 2: how long an encoding is, its
bytes, what they assemble to, and O50, O19, O20, O24 -/

namespace Sys2Proof.Proofs

open Sys2Proof.Machine Sys2Proof.Claims

/-- Settles O50: `ceil` is the least number of groups, and the values of the spec's table are evaluated. -/
theorem derivedConstants : Obligations.DerivedConstants := by
  refine ⟨fun w hw => ⟨?_, ?_, rfl⟩, fun w hw => ⟨?_, ?_, rfl⟩, by decide⟩
  · simp only [groupsU, ceilDiv]; omega
  · simp only [groupsU, ceilDiv]; omega
  · simp only [groupsS, ceilDiv]; omega
  · simp only [groupsS, ceilDiv]; omega

section Unsigned
variable {v n : Nat}

/-- `enc_u(v)` fits `n` bytes exactly when `v` fits `n` groups of 7 bits (41_unsigned_varint.md R78). -/
theorem encU_length_le_iff (hn : 1 ≤ n) : (encU v).length ≤ n ↔ v < 2 ^ (7 * n) := by
  rcases Nat.eq_zero_or_pos v with rfl | hv
  · rw [encU_of_lt (by omega)]
    simp [hn]
  · rw [encU_length hv.ne', ← bitLen_le_iff, ceilDiv]
    omega

theorem lt_two_pow_encU_length : v < 2 ^ (7 * (encU v).length) :=
  (encU_length_le_iff (encU_length_pos v)).1 le_rfl

theorem two_pow_le_of_two_le_encU_length (h : 2 ≤ (encU v).length) : 2 ^ (7 * ((encU v).length - 1)) ≤ v := by
  rw [← not_lt, ← encU_length_le_iff (by omega)]
  omega

theorem two_pow_seven_mul (k : Nat) : 2 ^ (7 * k) = 128 ^ k := by rw [pow_mul]; norm_num

/-- Byte `i` of `enc_u(v)` is the group `i` of `v`, flagged in all but the last (R78). -/
theorem getElem?_encU {i : Nat} (hi : i < (encU v).length) :
    (encU v)[i]? = some (groupByte (decide (i < (encU v).length - 1)) (v >>> (7 * i))) := by
  induction v using Nat.strong_induction_on generalizing i with
  | _ v ih =>
    by_cases h : v < 128
    · rw [encU_of_lt h] at hi ⊢
      obtain rfl : i = 0 := by simpa using hi
      simp
    · have hlen := encU_length_pos (v / 128)
      rw [encU_of_ge (by omega), List.length_cons] at hi ⊢
      cases i with
      | zero => simp [show 0 < (encU (v / 128)).length by omega]
      | succ i =>
        rw [List.getElem?_cons_succ, ih (v / 128) (by omega) (by omega),
          show v / 128 = v >>> 7 from (Nat.shiftRight_eq_div_pow v 7).symm, ← Nat.shiftRight_add,
          show 7 + 7 * i = 7 * (i + 1) by omega, Nat.add_sub_cancel,
          decide_eq_decide.2 (show i < (encU (v >>> 7)).length - 1 ↔ i + 1 < (encU (v >>> 7)).length by omega)]

theorem groupByte_eq_ofNat (more : Bool) (v : Nat) :
    groupByte more v = BitVec.ofNat 8 ((v &&& 0x7F) ||| if more then 0x80 else 0) := by
  cases more with
  | false => simp [groupByte]
  | true => rw [groupByte, if_pos rfl, bitSet_seven, if_pos rfl, BitVec.ofNat_or]

end Unsigned

/-- Settles O19: length, bounds and bytes are those of the lemmas above. -/
theorem unsignedEncodingClosedForm : Obligations.UnsignedEncodingClosedForm := by
  intro v
  refine ⟨?_, encU_length_pos v, ?_, fun h => ?_, fun w hv hw => encU_length_le hv hw, fun i hi => ?_⟩
  · split
    · next h => rw [encU_of_lt h, List.length_singleton]
    · exact encU_length (by omega)
  · rw [← two_pow_seven_mul]
    exact lt_two_pow_encU_length
  · rw [← two_pow_seven_mul]
    exact two_pow_le_of_two_le_encU_length h
  · simp only [getElem?_encU hi, groupByte_eq_ofNat, decide_eq_true_eq]

section Assembly
variable {sh : Nat} {b : Byte} {bs cs : List Byte}

theorem payload_eq_extractLsb' (b : Byte) : payload b = (b.extractLsb' 0 7).toNat := by
  rw [payload_eq, BitVec.extractLsb'_toNat]
  simp

theorem firstBits_eq_extractLsb' (f : Byte) : firstBits f = (f.extractLsb' 0 6).toNat := by
  rw [firstBits_eq, BitVec.extractLsb'_toNat]
  simp

/-- One more payload below the rest (30_encoding.md R55), in the model's words. -/
theorem orGroups_cons : orGroups sh (b :: bs) = payload b <<< sh ||| orGroups (sh + 7) bs := by
  rw [orGroups, payload_eq_extractLsb']

theorem orGroups_append : orGroups sh (bs ++ cs) = orGroups sh bs ||| orGroups (sh + 7 * bs.length) cs := by
  induction bs generalizing sh with
  | nil => simp [orGroups]
  | cons b bs ih =>
    rw [List.cons_append, orGroups_cons, orGroups_cons, ih, Nat.or_assoc, List.length_cons,
      show sh + 7 * (bs.length + 1) = sh + 7 + 7 * bs.length by omega]

theorem orGroups_lt : orGroups sh bs < 2 ^ (sh + 7 * bs.length) := by
  induction bs generalizing sh with
  | nil => simp [orGroups]
  | cons b bs ih =>
    rw [orGroups_cons, List.length_cons, show sh + 7 * (bs.length + 1) = sh + 7 + 7 * bs.length by omega]
    refine Nat.or_lt_two_pow (lt_of_lt_of_le ?_ (Nat.pow_le_pow_right (by omega) (Nat.le_add_right (sh + 7) _))) ih
    rw [Nat.shiftLeft_eq, Nat.pow_add, Nat.mul_comm]
    exact Nat.mul_lt_mul_of_pos_left (payload_lt b) (by positivity)

theorem orGroups_encU (v : Nat) : orGroups sh (encU v) = v <<< sh := by
  induction v using Nat.strong_induction_on generalizing sh with
  | _ v ih =>
    by_cases h : v < 128
    · rw [encU_of_lt h, orGroups_cons, payload_groupByte, Nat.mod_eq_of_lt h, orGroups, Nat.or_zero]
    · rw [encU_of_ge (by omega), orGroups_cons, payload_groupByte, ih (v / 128) (by omega), or_shiftLeft_groups]

end Assembly

/-- Settles O20: `n` bytes assemble to less than `2^(7n)`, and a number below that has an encoding of at most `n` bytes. -/
theorem unsignedEncodingIsMinimal : Obligations.UnsignedEncodingIsMinimal := by
  intro w v hv
  refine ⟨by rw [orGroups_encU, Nat.shiftLeft_zero, Nat.mod_eq_of_lt hv], fun bs hne hbs => ?_, fun hlen => ?_⟩
  · rw [encU_length_le_iff (List.length_pos_of_ne_nil hne)]
    have hlt := orGroups_lt (sh := 0) (bs := bs)
    have hmod := Nat.mod_le (orGroups 0 bs) (2 ^ w)
    rw [Nat.zero_add] at hlt
    omega
  · refine getLast?_encU_ne_zero ?_
    rintro rfl
    rw [encU_of_lt (by omega)] at hlen
    simp at hlen

section SignedLength
variable {w : Nat} {v : Int}

theorem encS_length (hw : 0 < w) (hlo : -2 ^ (w - 1) ≤ v) (hhi : v < 2 ^ (w - 1)) :
    (encS w (bitsW w v)).length = 1 + if v.natAbs ≤ 63 then 0 else (encU (v.natAbs / 64)).length := by
  rw [encS_bitsW hw hlo hhi, List.length_cons, Nat.add_comm]
  split <;> rfl

theorem encS_length_le (hw : 8 ≤ w) (hlo : -2 ^ (w - 1) ≤ v) (hhi : v < 2 ^ (w - 1)) :
    (encS w (bitsW w v)).length ≤ maxLenS w := by
  have hgroups := encU_div_length_le_groupsS hw (natAbs_le_half hlo hhi)
  rw [encS_length (by omega) hlo hhi, maxLenS]
  split <;> omega

/-- What is left of `a` after six bits takes exactly `n` groups exactly when `a` is in the window that R89 gives. -/
theorem encU_div_length_eq_iff {a n : Nat} (ha : 63 < a) (hn : 1 ≤ n) :
    (encU (a / 64)).length = n ↔ 2 ^ (6 + 7 * (n - 1)) ≤ a ∧ a < 2 ^ (6 + 7 * n) := by
  have hwindow (k : Nat) : a / 64 < 2 ^ (7 * k) ↔ a < 2 ^ (6 + 7 * k) := by
    rw [Nat.div_lt_iff_lt_mul (by omega), Nat.pow_add, Nat.mul_comm]
  have hle := (encU_length_le_iff (v := a / 64) hn).trans (hwindow n)
  have hpos := encU_length_pos (a / 64)
  obtain rfl | hn' := hn.eq_or_lt
  · simp at hle ⊢
    omega
  · have hlt := (encU_length_le_iff (v := a / 64) (n := n - 1) (by omega)).trans (hwindow (n - 1))
    omega

end SignedLength

/-- Settles O24: the length is one byte and the groups of what six bits leave of `abs(v)`. -/
theorem signedEncodingLength : Obligations.SignedEncodingLength := by
  intro w v hw hlo hhi
  have hshift : v.natAbs >>> 6 = v.natAbs / 64 := Nat.shiftRight_eq_div_pow _ 6
  refine ⟨?_, fun hbig => ?_, fun k hk => ?_, encS_length_le hw hlo hhi⟩ <;> rw [encS_length (by omega) hlo hhi]
  · by_cases h : v.natAbs ≤ 63
    · rw [if_pos h, if_pos h]
    · rw [if_neg h, if_neg h, encU_length (by omega), ← hshift, bitLen_shiftRight]
  · rw [if_neg (by omega), hshift]
  · by_cases h : v.natAbs ≤ 63
    · have hpow : 2 ^ 6 ≤ 2 ^ (6 + 7 * (k - 2)) := Nat.pow_le_pow_right (by omega) (by omega)
      rw [if_pos h]
      omega
    · have hiff := encU_div_length_eq_iff (a := v.natAbs) (n := k - 1) (by omega) (by omega)
      rw [show k - 1 - 1 = k - 2 by omega] at hiff
      rw [if_neg h, ← hiff]
      omega

end Sys2Proof.Proofs

/-! ## 40_bit_primitives.md section 3: the laws of the bit-group functions, bit by bit, and O11, O14 -/

namespace Sys2Proof.Proofs

open Sys2Proof.Machine Sys2Proof.Claims

section Laws
variable (u : Byte) (p q : Pos)

@[simp] theorem bitTest_bitSet : bitTest (bitSet u p) q = if q = p then 1#1 else bitTest u q := by
  rw [bitTest_eq, bitTest_eq, getLsbD_bitSet u p q.isLt]
  simp only [BitVec.toNat_inj]
  split <;> rfl

@[simp] theorem bitTest_bitClear : bitTest (bitClear u p) q = if q = p then 0#1 else bitTest u q := by
  rw [bitTest_eq, bitTest_eq, getLsbD_bitClear u p q.isLt]
  simp only [BitVec.toNat_inj]
  split <;> rfl

variable {u p q}

/-- A unit is what BTST says of its eight positions. -/
theorem eq_of_bitTest {v : Byte} (h : ∀ r : Pos, bitTest u r = bitTest v r) : u = v := by
  refine BitVec.eq_of_getLsbD_eq fun i hi => ?_
  have hbit := h (BitVec.ofNat 3 i)
  rwa [bitTest_eq, bitTest_eq, BitVec.ofBool_eq_iff_eq, BitVec.toNat_ofNat, Nat.mod_eq_of_lt hi] at hbit

theorem bitSet_eq_self_iff : bitSet u p = u ↔ bitTest u p = 1#1 := by
  constructor
  · intro h
    rw [← h, bitTest_bitSet, if_pos rfl]
  · intro h
    refine eq_of_bitTest fun r => ?_
    by_cases hr : r = p <;> simp [hr, h]

theorem bitClear_eq_self_iff : bitClear u p = u ↔ bitTest u p = 0#1 := by
  constructor
  · intro h
    rw [← h, bitTest_bitClear, if_pos rfl]
  · intro h
    refine eq_of_bitTest fun r => ?_
    by_cases hr : r = p <;> simp [hr, h]

theorem bitSet_bitSet_comm : bitSet (bitSet u p) q = bitSet (bitSet u q) p := by
  refine eq_of_bitTest fun r => ?_
  by_cases hp : r = p <;> simp [hp]

theorem bitClear_bitClear_comm : bitClear (bitClear u p) q = bitClear (bitClear u q) p := by
  refine eq_of_bitTest fun r => ?_
  by_cases hp : r = p <;> simp [hp]

theorem bitSet_bitClear_comm (hne : q ≠ p) : bitSet (bitClear u p) q = bitClear (bitSet u q) p := by
  refine eq_of_bitTest fun r => ?_
  by_cases hp : r = p
  · simp [hp, hne.symm]
  · simp [hp]

/-- The last of two at the same position wins (R74). -/
theorem bitClear_bitSet : bitClear (bitSet u p) p = bitClear u p :=
  eq_of_bitTest fun r => by by_cases hr : r = p <;> simp [hr]

theorem bitSet_bitClear : bitSet (bitClear u p) p = bitSet u p :=
  eq_of_bitTest fun r => by by_cases hr : r = p <;> simp [hr]

end Laws

/-- The continuation flag of a first byte is bit 6, put on by an OR (30_encoding.md R52). -/
theorem firstByte_more_eq_or (sign : Bool) (low : Nat) :
    firstByte sign true low = firstByte sign false low ||| 0x40#8 := by
  rw [firstByte, firstByte, BitVec.ofNat_or, BitVec.ofNat_or, BitVec.ofNat_or, BitVec.ofNat_or]
  rw [show BitVec.ofNat 8 (true.toNat <<< 6) = 0x40#8 from rfl, show BitVec.ofNat 8 (false.toNat <<< 6) = 0#8 from rfl,
    BitVec.or_zero]
  ac_rfl

/-- Settles O11: BTST's answer carries `bitTest` of the ports. -/
theorem btstTestsOneBit : Obligations.BtstTestsOneBit := by
  refine ⟨rfl, fun s => ⟨fun hx => exec_bitop_answers rfl hx ⟨rfl, ?_⟩, fun hx => exec_bitop_failsWith rfl hx⟩⟩
  show bitTest s.req.unitIn s.req.pos = _
  rw [bitTest_eq]
  cases s.req.unitIn.getLsbD s.req.pos.toNat <;> rfl

/-- Settles O14: each law holds at every position, and the codec's flags and fields are these functions at 7 and 6. -/
theorem bitPrimitiveLaws : Obligations.BitPrimitiveLaws := by
  refine ⟨fun u p => ?_, fun u p q hne => ?_, fun b => ?_, fun f => ?_, fun v => rfl, fun s c low => ?_⟩
  · have hset : bitTest (bitSet u p) p = 1#1 := by simp
    have hclear : bitTest (bitClear u p) p = 0#1 := by simp
    exact ⟨hset, hclear, bitSet_eq_self_iff.2 hset, bitClear_eq_self_iff.2 hclear, bitClear_bitSet, bitSet_bitClear,
      bitSet_eq_self_iff, bitClear_eq_self_iff⟩
  · exact ⟨by simp [hne], by simp [hne], bitSet_bitSet_comm, bitClear_bitClear_comm, bitSet_bitClear_comm hne⟩
  · exact ⟨beq_iff_eq, rfl, payload_eq_extractLsb' b⟩
  · exact ⟨beq_iff_eq, beq_iff_eq, rfl, congrArg BitVec.toNat bitClear_bitClear_comm, firstBits_eq_extractLsb' f⟩
  · rw [bitSet_seven]
    exact ⟨firstByte_true_eq_or c low, firstByte_more_eq_or s low⟩

end Sys2Proof.Proofs

/-! ## 42_signed_varint.md section 4: what DECS makes of `enc_s`, and O40, O42 -/

namespace Sys2Proof.Proofs

open Sys2Proof.Machine Sys2Proof.Claims

section DecS
variable {w : Nat} {m : Memory} {len c : Nat} {f : Byte}

theorem decS_last (hread : byteRead m len c = .ok f) (hf : firstFlag f = false) :
    decS w m len c = .ok (applySign w (signFlag f) (firstBits f), 1) := by
  simp [decS, hread, hf]

theorem decS_more {r n : Nat} (hread : byteRead m len c = .ok f) (hf : firstFlag f = true)
    (hd : decGroups w m len (c + 1) (groupsS w) 6 = .ok (r, n)) :
    decS w m len c = .ok (applySign w (signFlag f) (firstBits f ||| r), 1 + n) := by
  simp [decS, hread, hf, hd]

end DecS

section SignedInverse
variable {w u : Nat}

/-- Sign and magnitude hold the whole pattern. -/
theorem applySign_magnitude (hu : u < 2 ^ w) : applySign w (signOf w u) (magnitude w u) = u := by
  by_cases hs : signOf w u = true
  · rw [magnitude, if_pos hs, applySign, if_pos hs, negW_negW w u hu]
  · rw [magnitude, if_neg hs, applySign, if_neg hs]

theorem magnitude_le_half (hw : 0 < w) (hu : u < 2 ^ w) : magnitude w u ≤ 2 ^ (w - 1) := by
  obtain ⟨v, hlo, hhi, rfl⟩ := exists_signed_of_lt hw hu
  rw [magnitude_bitsW hw hlo hhi]
  exact natAbs_le_half hlo hhi

/-- The six bits of the first byte and the rest above them are the magnitude. -/
theorem mod_or_truncW_shiftLeft {a : Nat} (ha : a < 2 ^ w) : a % 64 ||| truncW w (a / 64 * 64) = a := by
  rw [truncW, Nat.mod_eq_of_lt (show a / 64 * 64 < 2 ^ w by omega), Nat.or_comm, Nat.mul_comm]
  exact (or_low_eq_add 6 _ _ (Nat.mod_lt a (by omega))).trans (Nat.div_add_mod a 64)

/-- DECS's function inverts `enc_s` on the `W`-bit patterns (R95). -/
theorem decS_encS {m : Memory} {len c : Nat} (hw : 8 ≤ w) (hu : u < 2 ^ w) (hs : StandsAt m c (encS w u))
    (hl : c + (encS w u).length ≤ len) : decS w m len c = .ok (u, (encS w u).length) := by
  have hrem : magnitude w u >>> 6 = magnitude w u / 64 := Nat.shiftRight_eq_div_pow _ 6
  have hhalf := magnitude_le_half (by omega) hu
  have hlt : magnitude w u < 2 ^ w := hhalf.trans_lt (Nat.pow_lt_pow_right (by omega) (by omega))
  simp only [encS, firstByte_and_low, hrem] at hs hl ⊢
  split at hs
  · next hsmall =>
    rw [if_pos hsmall] at hl ⊢
    have hread := byteRead_of_standsAt_cons hs (len := len) (by simpa using hl)
    rw [decS_last hread (firstFlag_firstByte _ _ _), signFlag_firstByte, firstBits_firstByte,
      Nat.mod_eq_of_lt (by omega), applySign_magnitude hu, List.length_singleton]
  · next hbig =>
    rw [if_neg hbig] at hl ⊢
    rw [List.length_cons] at hl
    have hread := byteRead_of_standsAt_cons hs (len := len) (by omega)
    have hgroups := decGroupsFrom_encU (w := w) (sh := 6) (r := 0) (i := 0) (standsAt_cons.1 hs).2
      (show _ ≤ len by omega) (encU_div_length_le_groupsS hw hhalf)
    rw [decS_more hread (firstFlag_firstByte _ _ _) hgroups, signFlag_firstByte, firstBits_firstByte, Nat.zero_or,
      Nat.shiftLeft_eq, mod_or_truncW_shiftLeft hlt, applySign_magnitude hu, List.length_cons]
    simp [Nat.add_comm]

end SignedInverse

/-- A decode of an encoding with the same signedness finds the pattern and consumes exactly its bytes. -/
theorem decodedResult_encBytes {s : State} {sgn : Bool} {u : Nat} (hw : 8 ≤ s.params.w) (hu : u < 2 ^ s.params.w)
    (hs : StandsAt s.seq s.req.curIn (encBytes s.params.w sgn u))
    (hl : s.req.curIn + (encBytes s.params.w sgn u).length ≤ s.req.len) :
    decodedResult s (.decGen sgn) = .ok (u, (encBytes s.params.w sgn u).length) := by
  cases sgn with
  | false => exact decU_encU (by omega) hu hs hl
  | true => exact decS_encS hw hu hs hl

/-- Settles O40: the bytes of `enc_s(v)` stand at the cursor, and DECS's function inverts them. -/
theorem signedRoundTrip : Obligations.SignedRoundTrip := by
  intro s v before after hp hlo hhi hseq hcur hlen
  have hs : StandsAt s.seq s.req.curIn (encS s.params.w (bitsW s.params.w v)) := by
    rw [hcur]
    nth_rw 1 [hseq]
    exact standsAt_ofBytes before _ after
  have hfits : s.req.curIn + (encS s.params.w (bitsW s.params.w v)).length ≤ s.req.len := by
    have hlength := congrArg List.length hseq
    rw [Memory.length_ofBytes, List.length_append, List.length_append] at hlength
    omega
  rw [← hcur]
  exact exec_decode_answers (i := .decs) rfl hlen.le (decS_encS hp.2 (bitsW_lt v) hs hfits)

section Bounds
variable {i : Instr} {s : State} {v n : Nat}

/-- What a decode finds, DECU's function or DECS's found. -/
theorem decodedResult_ok_cases (hd : decodedResult s i = .ok (v, n)) :
    decU s.params.w s.seq s.req.len s.req.curIn = .ok (v, n) ∨
      decS s.params.w s.seq s.req.len s.req.curIn = .ok (v, n) := by
  rcases decodedResult_kind_cases i with h | h | h <;> rw [h s] at hd
  · exact .inl hd
  · exact .inr hd
  · cases hd

/-- How many bytes an OK decode consumes, how far it reads and how wide its value is (00_scope.md R11). -/
theorem decodedResult_bounds (hw : 8 ≤ s.params.w) (hd : decodedResult s i = .ok (v, n)) :
    1 ≤ n ∧ n ≤ max (maxLenU s.params.w) (maxLenS s.params.w) ∧ s.req.curIn + n ≤ s.req.len ∧ v < 2 ^ s.params.w := by
  rcases decodedResult_ok_cases hd with h | h
  · obtain ⟨hpos, hmax, hfar, hlt⟩ := decU_bounds hw h
    exact ⟨hpos, hmax.trans (le_max_left _ _), hfar, hlt⟩
  · obtain ⟨hpos, hmax, hfar, hlt⟩ := decS_bounds hw h
    exact ⟨hpos, hmax.trans (le_max_right _ _), hfar, hlt⟩

end Bounds

/-- Settles O33: an OK decode's response says what the decode found. -/
theorem decodeLeavesCursorPastLastByte : Obligations.DecodeLeavesCursorPastLastByte := by
  rintro i s t hp hi h ⟨p, hresp, herr⟩
  obtain ⟨-, v, n, hd, rfl, -, hcur, hn⟩ := exec_decode_ok_cases hi h hresp herr
  obtain ⟨hpos, -, hfar, -⟩ := decodedResult_bounds hp.2 hd
  exact ⟨p, hresp, by rwa [hn], by rw [hcur, hn], hcur.symm, by rwa [hcur]⟩

/-- Settles O42: a decoded value is a `W`-bit pattern, so bytes that re-encoding gives back are an encoding; and the
decode of an encoding finds the pattern it encodes. -/
theorem reencodingReproducesExactlyCanonicalBytes : Obligations.ReencodingReproducesExactlyCanonicalBytes := by
  intro sgn s t p bs hp _ _ h hresp herr hlen hs
  obtain ⟨-, v, n, hd, -, hv, -, hn⟩ := exec_decode_ok_cases rfl h hresp herr
  obtain ⟨-, -, hfar, hlt⟩ := decodedResult_bounds hp.2 hd
  constructor
  · intro hbytes
    exact ⟨p.valOut, by rwa [hv], hbytes.symm⟩
  · rintro ⟨u, hu, rfl⟩
    have hinverse := decodedResult_encBytes hp.2 hu hs (by omega)
    rw [hd] at hinverse
    cases hinverse
    rw [hv]

end Sys2Proof.Proofs

/-! ## 30_encoding.md section 2: a run of group bytes, what the decoders make of one, and O26, O28, O38 -/

namespace Sys2Proof.Proofs

open Sys2Proof.Machine Sys2Proof.Claims

section Runs
variable {bound : Nat} {b : Byte} {bs : List Byte}

/-- A run is its first byte alone, unflagged or at the bound, or a flagged byte before a run (R54). -/
theorem groupRun_cons (h : GroupRun bound (b :: bs)) : ∃ left, bound = left + 1 ∧
    ((bs = [] ∧ (left = 0 ∨ groupFlag b = false)) ∨ (groupFlag b = true ∧ GroupRun left bs)) := by
  obtain ⟨-, hlen, hflags, hend⟩ := h
  rw [List.length_cons] at hlen
  refine ⟨bound - 1, by omega, ?_⟩
  rw [groupFlag_eq]
  cases bs with
  | nil => exact .inl ⟨rfl, hend.imp (fun h => by simp at h; omega) fun h => h b rfl⟩
  | cons b' bs =>
    refine .inr ⟨hflags 0 b rfl (by simp), nofun, by omega, fun j x hx hj => ?_, hend.imp (fun h => ?_) fun h x hx => ?_⟩
    · exact hflags (j + 1) x hx (by simpa using hj)
    · simp at h ⊢; omega
    · exact h x (by rwa [List.getLast?_cons_cons])

/-- A run seen from its last byte. -/
theorem groupRun_concat (h : GroupRun bound (bs ++ [b])) :
    bs.length + 1 ≤ bound ∧ (∀ (j : Nat) (x : Byte), bs[j]? = some x → groupFlag x = true) ∧
      (bs.length + 1 = bound ∨ groupFlag b = false) := by
  obtain ⟨-, hlen, hflags, hend⟩ := h
  simp only [List.length_append, List.length_singleton] at hlen hflags hend
  refine ⟨hlen, fun j x hx => ?_, hend.imp_right fun h => ?_⟩
  · have hj : j < bs.length := (List.getElem?_eq_some_iff.1 hx).1
    rw [groupFlag_eq]
    exact hflags j x (by rwa [List.getElem?_append_left hj]) (by omega)
  · rw [groupFlag_eq]
    exact h b (by simp)

end Runs

section DecodedRuns
variable {w : Nat} {m : Memory} {len i0 sh : Nat} {bs : List Byte}

/-- `dec_groups` on a run, wherever it stands: it ORs what the payloads assemble to into the pattern and consumes
exactly the run (R54, R55). -/
theorem decGroupsFrom_groupRun {left i r : Nat} (hs : StandsAt m (i0 + i) bs) (hrun : GroupRun left bs)
    (hl : i0 + i + bs.length ≤ len) :
    decGroupsFrom w m len i0 sh left i r = .ok (r ||| truncW w (orGroups (sh + 7 * i) bs), i + bs.length) := by
  induction bs generalizing left i r with
  | nil => exact absurd rfl hrun.1
  | cons b bs ih =>
    rw [List.length_cons] at hl
    have hread := byteRead_of_standsAt_cons hs (len := len) (by omega)
    rw [orGroups_cons, truncW_or, ← Nat.or_assoc]
    obtain ⟨left, rfl, ⟨rfl, hend⟩ | ⟨hb, hrest⟩⟩ := groupRun_cons hrun
    · rw [orGroups, show truncW w 0 = 0 from Nat.zero_mod _, Nat.or_zero, List.length_singleton]
      cases hb : groupFlag b with
      | false => exact decGroupsFrom_last hread hb
      | true =>
        obtain rfl : left = 0 := by simpa [hb] using hend
        exact decGroupsFrom_more hread hb
    · rw [decGroupsFrom_more hread hb, ih (standsAt_cons.1 hs).2 hrest (by omega), List.length_cons,
        show sh + 7 * (i + 1) = sh + 7 * i + 7 by omega, show i + 1 + bs.length = i + (bs.length + 1) by omega]

theorem decGroups_groupRun {bound : Nat} (hs : StandsAt m i0 bs) (hrun : GroupRun bound bs)
    (hl : i0 + bs.length ≤ len) :
    decGroups w m len i0 bound sh = .ok (orGroups sh bs % 2 ^ w, bs.length) := by
  have hall := decGroupsFrom_groupRun (w := w) (sh := sh) (i := 0) (r := 0) hs hrun hl
  simpa [decGroups, truncW] using hall

/-- What DECS makes of a first byte and its continuation bytes (30_encoding.md R56). -/
theorem decS_signedValue {c : Nat} {f : Byte} {gs : List Byte} (hw : 6 ≤ w) (hs : StandsAt m c (f :: gs))
    (hgs : if f.getLsbD 6 then GroupRun (groupsS w) gs else gs = []) (hl : c + (1 + gs.length) ≤ len) :
    decS w m len c = .ok (signedValue w f gs, 1 + gs.length) := by
  have hread := byteRead_of_standsAt_cons hs (len := len) (by omega)
  have hwide : 2 ^ 6 ≤ 2 ^ w := Nat.pow_le_pow_right (by omega) hw
  have hfirst : firstBits f % 2 ^ w = firstBits f := Nat.mod_eq_of_lt ((firstBits_lt f).trans_le hwide)
  have hvalue : signedValue w f gs = applySign w (signFlag f) (firstBits f ||| orGroups 6 gs % 2 ^ w) := by
    rw [signedValue, ← firstBits_eq_extractLsb', Nat.or_mod_two_pow, hfirst, ← signFlag_eq]
    rfl
  rw [hvalue]
  split at hgs
  · next hf =>
    exact decS_more hread ((firstFlag_eq f).trans hf) (decGroups_groupRun (standsAt_cons.1 hs).2 hgs (by omega))
  · next hf =>
    subst hgs
    rw [decS_last hread ((firstFlag_eq f).trans (by simpa using hf)), orGroups, Nat.zero_mod, Nat.or_zero]
    rfl

end DecodedRuns

/-- Settles O26: DECU's function is `dec_groups` from bit position 0. -/
theorem decuReadsTheValue : Obligations.DecuReadsTheValue := fun _ _ hl hs hrun hfits =>
  exec_decode_answers (i := .decu) rfl hl (decGroups_groupRun hs hrun hfits)

/-- Settles O28: DECS's function finds the assembled value. -/
theorem decsReadsTheValue : Obligations.DecsReadsTheValue := fun _ _ _ hp hl hs hgs hfits =>
  exec_decode_answers (i := .decs) rfl hl (decS_signedValue (by omega) hs hgs hfits)

section Lossy
variable {w : Nat}

/-- Only the last byte of a run can carry a bit at `W` or above, and it does so when its payload is too wide for the
bits that the bytes before it leave. -/
theorem two_pow_le_orGroups_concat_iff {bs : List Byte} {b : Byte} (hw : 7 * bs.length ≤ w) :
    2 ^ w ≤ orGroups 0 (bs ++ [b]) ↔ 2 ^ (w - 7 * bs.length) ≤ payload b := by
  have hlow : orGroups 0 bs < 2 ^ (7 * bs.length) := by simpa using orGroups_lt (sh := 0) (bs := bs)
  have hsplit : 2 ^ w = 2 ^ (7 * bs.length) * 2 ^ (w - 7 * bs.length) := by rw [← pow_add, Nat.add_sub_cancel' hw]
  have hsum : orGroups 0 (bs ++ [b]) = 2 ^ (7 * bs.length) * payload b + orGroups 0 bs := by
    rw [orGroups_append, orGroups_cons, orGroups, Nat.or_zero, Nat.zero_add, Nat.or_comm, Nat.shiftLeft_eq, Nat.mul_comm,
      or_low_eq_add _ _ _ hlow]
  rw [hsum, hsplit, Nat.mul_comm _ (2 ^ (w - 7 * bs.length)), ← Nat.le_div_iff_mul_le (by positivity),
    Nat.mul_add_div (by positivity), Nat.div_eq_of_lt hlow, Nat.add_zero]

theorem lossyU_iff {m : Memory} {c : Nat} : lossyU w m c = true ↔
    (∀ j, j < groupsU w - 1 → ∃ b, m.read (c + j) = some b ∧ groupFlag b = true) ∧
      ∃ b, m.read (c + (groupsU w - 1)) = some b ∧
        (groupFlag b = true ∨ 2 ^ (w - 7 * (groupsU w - 1)) ≤ payload b) := by
  have hwide (b : Byte) (k : Nat) : (payload b >>> k != 0) = true ↔ 2 ^ k ≤ payload b := by
    rw [bne_iff_ne, ne_eq, Nat.shiftRight_eq_div_pow, Nat.div_eq_zero_iff_lt (by positivity), not_lt]
  simp only [lossyU, Bool.and_eq_true, List.all_eq_true, List.mem_range, Option.any_eq_true, Bool.or_eq_true, hwide]

end Lossy

/-- Settles O38: a run shorter than the bound loses nothing and is not lossy; in a run at the bound both sides ask the
last byte the same. -/
theorem lossyExactlyWhenBitsAreLost : Obligations.LossyExactlyWhenBitsAreLost := by
  intro s bs hp hs hrun
  obtain ⟨-, hw⟩ := hp
  obtain ⟨bs, b, rfl⟩ : ∃ cs b, bs = cs ++ [b] := ⟨_, _, (List.dropLast_append_getLast hrun.1).symm⟩
  obtain ⟨hlen, hflags, hend⟩ := groupRun_concat hrun
  have hwidth : 7 * (groupsU s.params.w - 1) < s.params.w := by simp only [groupsU, ceilDiv]; omega
  have hb : s.seq.read (s.req.curIn + bs.length) = some b := by simpa using hs bs.length (by simp)
  rw [lossyU_iff, two_pow_le_orGroups_concat_iff (by omega)]
  simp only [List.getLast?_append, List.getLast?_singleton, Option.some_or, Option.some.injEq, exists_eq_left',
    ← groupFlag_eq]
  obtain hbound | hshort : bs.length + 1 = groupsU s.params.w ∨ bs.length + 1 < groupsU s.params.w := by omega
  · have hprev (j : Nat) (hj : j < bs.length) :
        ∃ x, s.seq.read (s.req.curIn + j) = some x ∧ groupFlag x = true := by
      have hread := hs j (by simp; omega)
      rw [List.getElem?_append_left hj, List.getElem?_eq_getElem hj] at hread
      exact ⟨bs[j], hread, hflags j _ (List.getElem?_eq_getElem hj)⟩
    rw [show groupsU s.params.w - 1 = bs.length by omega, hb]
    simp only [Option.some.injEq, exists_eq_left']
    rw [and_iff_right hprev, or_comm]
  · have hlast : groupFlag b = false := hend.resolve_left (by omega)
    have hwide : 2 ^ 7 ≤ 2 ^ (s.params.w - 7 * bs.length) := Nat.pow_le_pow_right (by omega) (by omega)
    have hsmall : payload b < 2 ^ (s.params.w - 7 * bs.length) := (payload_lt b).trans_le hwide
    refine iff_of_false (fun h => ?_) (by simp [hlast, hsmall])
    obtain ⟨x, hx, hflag⟩ := h.1 bs.length (by omega)
    rw [hb, Option.some.injEq] at hx
    simp [← hx, hlast] at hflag

end Sys2Proof.Proofs

/-! ## 60_exceptions.md: exactly when a decode runs out of bytes, and O27, O29, O32 -/

namespace Sys2Proof.Proofs

open Sys2Proof.Machine Sys2Proof.Claims

section Truncation
variable {w : Nat} {m : Memory} {len c : Nat}

/-- `dec_groups` runs out of bytes exactly when it finds nothing but flagged bytes up to `len`, fewer than its bound. -/
theorem decGroups_truncated_iff {i0 bound sh : Nat} :
    decGroups w m len i0 bound sh = .error .truncated ↔ AllFlagged m i0 len ∧ len - i0 < bound := by
  obtain ⟨k, hk, hflagged, hend⟩ :=
    decGroupsFrom_cases (w := w) (m := m) (len := len) (i0 := i0) (sh := sh) bound 0 0
  simp only [Nat.zero_add] at hflagged hend
  rw [decGroups]
  rcases hend with ⟨rfl, v, hres⟩ | ⟨-, b, v, hread, hb, hres⟩ | ⟨hlt, e, hread, hres⟩ <;> rw [hres]
  · refine iff_of_false nofun fun ⟨_, hfew⟩ => ?_
    obtain ⟨b, hread, -⟩ := hflagged (k - 1) (by omega)
    rw [byteRead_ok_iff] at hread
    omega
  · refine iff_of_false nofun fun ⟨hall, _⟩ => ?_
    obtain ⟨hin, hread⟩ := (byteRead_ok_iff m b len _).1 hread
    obtain ⟨b', hread', hb'⟩ := hall (i0 + k) (by omega) hin
    rw [hread, Option.some.injEq] at hread'
    rw [← hread', ← groupFlag_eq, hb] at hb'
    cases hb'
  · rcases byteRead_cases m len (i0 + k) with ⟨hout, heq⟩ | ⟨hin, hnone, heq⟩ | ⟨b, -, -, heq⟩ <;>
      cases heq.symm.trans hread
    · refine iff_of_true rfl ⟨fun a hlo hhi => ?_, by omega⟩
      obtain ⟨b, hread, hb⟩ := hflagged (a - i0) (by omega)
      rw [Nat.add_sub_cancel' hlo, byteRead_ok_iff] at hread
      exact ⟨b, hread.2, (groupFlag_eq b).symm.trans hb⟩
    · refine iff_of_false nofun fun ⟨hall, _⟩ => ?_
      obtain ⟨b, hread, -⟩ := hall (i0 + k) (by omega) hin
      rw [hnone] at hread
      cases hread

/-- DECS runs out of bytes at its first byte or, if that says that more follow, in its continuation bytes (R94). -/
theorem decS_truncated_iff : decS w m len c = .error .truncated ↔
    len ≤ c ∨ ((∃ f, m.read c = some f ∧ f.getLsbD 6 = true) ∧ AllFlagged m (c + 1) len ∧ len - (c + 1) < groupsS w) := by
  rw [← decGroups_truncated_iff (w := w) (sh := 6)]
  rcases decS_cases w m len c with ⟨e, hread, hres⟩ | ⟨f, hread, hf, hres⟩ | ⟨f, r, n, hread, hf, hd, hres⟩ |
      ⟨f, e, hread, hf, hd, hres⟩ <;> rw [hres]
  · rcases byteRead_cases m len c with ⟨hout, heq⟩ | ⟨hin, hnone, heq⟩ | ⟨b, -, -, heq⟩ <;> cases heq.symm.trans hread
    · exact iff_of_true rfl (.inl hout)
    · simp [hin, hnone]
  · obtain ⟨hin, hsome⟩ := (byteRead_ok_iff m f len c).1 hread
    rw [firstFlag_eq] at hf
    simp only [hsome, Option.some.injEq, exists_eq_left', hf, Bool.false_eq_true, false_and, or_false, reduceCtorEq]
    exact iff_of_false nofun (by omega)
  · obtain ⟨hin, hsome⟩ := (byteRead_ok_iff m f len c).1 hread
    simp [hin, hd]
  · obtain ⟨hin, hsome⟩ := (byteRead_ok_iff m f len c).1 hread
    rw [firstFlag_eq] at hf
    simp [hin, hsome, hf, hd]

end Truncation

section Raised
variable {i : Instr} {s t : State}

theorem exec_decode_truncated_iff (hi : i.isDecode = true) (hl : s.lenHonest) :
    (∃ t, exec i s = .next t ∧ Answers t fun p => p.err = 1#2) ↔ decodedResult s i = .error .truncated := by
  constructor
  · rintro ⟨t, h, p, hresp, herr⟩
    obtain ⟨-, ⟨v, n, -, rfl⟩ | ⟨hd, -⟩⟩ := exec_decode_next_cases hi h
    · cases hresp
      cases herr
    · exact hd
  · intro hd
    exact ⟨_, exec_decode_of_truncated hi hl hd, _, State.raise_resp _ _, rfl⟩

/-- An operation that answers an error code fails with it (R106, R110). -/
theorem failsWith_of_err {code : BitVec 2} (hcode : code ≠ 0#2) (h : exec i s = .next t)
    (herr : Answers t fun p => p.err = code) : FailsWith s t code := by
  obtain ⟨p, hresp, rfl⟩ := herr
  obtain ⟨honly, hcur⟩ := errorResponseKeepsEverything i s t p h hresp hcode
  exact ⟨⟨p, hresp, rfl, hcur⟩, honly⟩

end Raised

/-- Settles O27: DECU's function is `dec_groups` with the bound `G_u`, which is not 0. -/
theorem decuTruncatedExactly : Obligations.DecuTruncatedExactly := by
  intro s hp _ hl
  have hgroups := two_le_groupsU hp.2
  refine ⟨?_, fun t h herr => failsWith_of_err (by decide) h herr⟩
  rw [exec_decode_truncated_iff (i := .decu) rfl hl]
  refine decGroups_truncated_iff.trans ⟨.inr, fun h => h.elim (fun hout => ?_) id⟩
  exact ⟨fun a hlo hhi => by omega, by omega⟩

/-- Settles O29: what `decS_truncated_iff` says of DECS's function. -/
theorem decsTruncatedExactly : Obligations.DecsTruncatedExactly := by
  intro s _ _ hl
  refine ⟨?_, fun t h herr => failsWith_of_err (by decide) h herr⟩
  rw [exec_decode_truncated_iff (i := .decs) rfl hl]
  exact decS_truncated_iff

/-- Settles O32: a decode with an honest `len` answers, and with that many bytes it does not run out. -/
theorem decodersNeverRejectContent : Obligations.DecodersNeverRejectContent := by
  intro s sgn hp hm hl hbytes
  have hgroups := two_le_groupsU hp.2
  have henough : decodedResult s (.decGen sgn) ≠ .error .truncated := by
    cases sgn with
    | false =>
      have hlong : s.req.curIn + groupsU s.params.w ≤ s.req.len := hbytes
      intro h
      obtain ⟨-, hfew⟩ := decGroups_truncated_iff.1 h
      omega
    | true =>
      have hlong : s.req.curIn + (1 + groupsS s.params.w) ≤ s.req.len := hbytes
      intro h
      rcases decS_truncated_iff.1 h with hout | ⟨-, -, hfew⟩ <;> omega
  obtain ⟨t, ht⟩ := exec_decode_completes (i := .decGen sgn) rfl hm hl
  obtain ⟨-, ⟨v, n, -, rfl⟩ | ⟨hd, -⟩⟩ := exec_decode_next_cases rfl ht
  · exact ⟨_, ht, _, State.respond_resp _ _, rfl⟩
  · exact absurd hd henough

end Sys2Proof.Proofs

/-! ## 20_memory.md: what a decode depends on, and O34, O35, O36, O37 -/

namespace Sys2Proof.Proofs

open Sys2Proof.Machine Sys2Proof.Claims

section Span
variable {w : Nat} {m m' : Memory} {len len' : Nat}

/-- Whatever the width, DECS reads no further than `len`. -/
theorem decS_ok_le {c v n : Nat} (h : decS w m len c = .ok (v, n)) : c + n ≤ len := by
  rcases decS_cases w m len c with ⟨e, -, hres⟩ | ⟨f, hread, -, hres⟩ | ⟨f, r, k, hread, -, hd, hres⟩ |
      ⟨f, e, -, -, -, hres⟩ <;> cases hres.symm.trans h
  · exact ((byteRead_ok_iff m f len c).1 hread).1
  · have hfirst := ((byteRead_ok_iff m f len c).1 hread).1
    obtain ⟨-, -, hfar, -⟩ := decGroups_bounds hd
    omega

/-- `dec_groups` sees the sequence and `len` through `ByteRead` only. -/
theorem decGroupsFrom_eq_of_byteRead {i0 sh left i r : Nat} (hm : ∀ a, byteRead m' len' a = byteRead m len a) :
    decGroupsFrom w m' len' i0 sh left i r = decGroupsFrom w m len i0 sh left i r := by
  induction left generalizing i r with
  | zero => rfl
  | succ left ih => simp only [decGroupsFrom, hm, ih]

theorem decS_eq_of_byteRead {c : Nat} (hm : ∀ a, byteRead m' len' a = byteRead m len a) :
    decS w m' len' c = decS w m len c := by
  simp only [decS, decGroups, hm, decGroupsFrom_eq_of_byteRead hm]

/-- Below `len`, the sequence cut to `len` bytes reads as the whole one does (70_reset_and_hazards.md R120). -/
theorem byteRead_ofBytes_take (hm : m.wf) (a : Nat) :
    byteRead (Memory.ofBytes (m.bytes.take len)) len a = byteRead m len a := by
  by_cases ha : len ≤ a
  · rw [(byteRead_truncated_iff _ len a).2 ha, (byteRead_truncated_iff _ len a).2 ha]
  · rw [byteRead, byteRead, Memory.read_eq _ (Memory.wf_ofBytes _), Memory.read_eq m hm, Memory.bytes_ofBytes,
      List.getElem?_take_of_lt (by omega)]

end Span

section Dependence
variable {i : Instr} {s s' : State}

theorem decodedResult_eq_of_byteRead (hw : s'.params = s.params) (hc : s'.req.curIn = s.req.curIn)
    (hm : ∀ a, byteRead s'.seq s'.req.len a = byteRead s.seq s.req.len a) :
    decodedResult s' i = decodedResult s i := by
  rcases decodedResult_kind_cases i with h | h | h <;> rw [h s, h s']
  · rw [hw, hc]
    exact decGroupsFrom_eq_of_byteRead hm
  · rw [hw, hc]
    exact decS_eq_of_byteRead hm

/-- An OK decode reads only below `len`. -/
theorem lt_len_of_decodedResult_ok {v n a : Nat} (hd : decodedResult s i = .ok (v, n)) (hlo : s.req.curIn ≤ a)
    (hhi : a < s.req.curIn + n) : a < s.req.len := by
  rcases decodedResult_ok_cases hd with h | h
  · obtain ⟨-, -, hfar, -⟩ := decGroups_bounds h
    omega
  · have hfar := decS_ok_le h
    omega

/-- An OK decode depends on the bytes it consumed only (20_memory.md R49). -/
theorem decodedResult_ok_congr {v n : Nat} (hd : decodedResult s i = .ok (v, n)) (hw : s'.params = s.params)
    (hc : s'.req.curIn = s.req.curIn)
    (hm : ∀ a, s.req.curIn ≤ a → a < s.req.curIn + n →
      byteRead s'.seq s'.req.len a = byteRead s.seq s.req.len a) :
    decodedResult s' i = .ok (v, n) := by
  rcases decodedResult_kind_cases i with h | h | h <;> rw [h s] at hd <;> rw [h s']
  · rw [hw, hc]
    exact decGroupsFrom_congr hd hm
  · rw [hw, hc]
    exact decS_congr hd hm
  · cases hd

/-- The ports that an OK decode defines come from its finding and `cur_in` (10_state.md R23). -/
theorem sameAnswer_afterDecode (hc : s'.req.curIn = s.req.curIn) (v n : Nat) :
    SameAnswer (afterDecode s v n) (afterDecode s' v n) ∧ (afterDecode s' v n).cursor = (afterDecode s v n).cursor := by
  have hend : s'.req.curIn + n = s.req.curIn + n := by rw [hc]
  exact ⟨⟨_, _, rfl, rfl, rfl, hend, fun _ => ⟨rfl, rfl⟩⟩, hend⟩

theorem sameAnswer_raise (hc : s'.req.curIn = s.req.curIn) : SameAnswer (s.raise .truncatedInput) (s'.raise .truncatedInput) :=
  ⟨_, _, rfl, rfl, rfl, hc, nofun⟩

end Dependence

/-- Settles O34: the bytes of the span read the same, so the other decode finds the same. -/
theorem decodeReadsOnlyItsSpan : Obligations.DecodeReadsOnlyItsSpan := by
  intro i s t s' p hi h hresp herr hparams hcur hcover hl' hspan
  obtain ⟨-, v, n, hd, rfl, -, hout, -⟩ := exec_decode_ok_cases hi h hresp herr
  rw [hout] at hcover hspan
  have hd' : decodedResult s' i = .ok (v, n) := by
    refine decodedResult_ok_congr hd hparams hcur fun a hlo hhi => ?_
    have hin := lt_len_of_decodedResult_ok hd hlo hhi
    rw [byteRead, byteRead, if_neg (by omega), if_neg (by omega), hspan a hlo hhi]
  exact ⟨_, exec_decode_of_ok hi hl' hd', sameAnswer_afterDecode hcur v n⟩

/-- Settles O35: `ByteRead` with this `len` cannot tell the cut sequence from the whole one. -/
theorem shorterLenIsTheCutSequence : Obligations.ShorterLenIsTheCutSequence := by
  intro i s t hi hm hl h
  have hsame : decodedResult { s with seq := Memory.ofBytes (s.seq.bytes.take s.req.len) } i = decodedResult s i :=
    decodedResult_eq_of_byteRead rfl rfl (byteRead_ofBytes_take hm)
  have hl' : State.lenHonest { s with seq := Memory.ofBytes (s.seq.bytes.take s.req.len) } := by
    simpa [State.lenHonest] using hl
  obtain ⟨-, ⟨v, n, hd, rfl⟩ | ⟨hd, rfl⟩⟩ := exec_decode_next_cases hi h
  · exact ⟨_, exec_decode_of_ok hi hl' (hsame.trans hd), rfl, rfl, rfl, rfl, rfl⟩
  · exact ⟨_, exec_decode_of_truncated hi hl' (hsame.trans hd), rfl, rfl, rfl, rfl, rfl⟩

/-- Settles O36: a decode leaves all that its finding depends on. -/
theorem repeatedDecodeGivesSameAnswer : Obligations.RepeatedDecodeGivesSameAnswer := by
  intro i s t hi h
  obtain ⟨hl, ⟨v, n, hd, rfl⟩ | ⟨hd, rfl⟩⟩ := exec_decode_next_cases hi h
  · have hsame : decodedResult (afterDecode s v n) i = decodedResult s i := decodedResult_congr rfl rfl rfl rfl
    obtain ⟨hanswer, hcursor⟩ := sameAnswer_afterDecode (s := s) (s' := afterDecode s v n) rfl v n
    exact ⟨_, exec_decode_of_ok hi hl (hsame.trans hd), hanswer, hcursor, rfl, fun _ => rfl⟩
  · have hsame : decodedResult (s.raise .truncatedInput) i = decodedResult s i := decodedResult_congr rfl rfl rfl rfl
    exact ⟨_, exec_decode_of_truncated hi hl (hsame.trans hd), sameAnswer_raise rfl, rfl, rfl, fun _ => rfl⟩

/-- Settles O37: a raised error leaves all that the finding of a decode depends on, before and after bytes are
appended. -/
theorem recoveryAfterTruncation : Obligations.RecoveryAfterTruncation := by
  rintro i s t u extra hi h ⟨p, hresp, herr⟩ hu
  obtain ⟨-, ⟨v, n, -, rfl⟩ | ⟨-, rfl⟩⟩ := exec_decode_next_cases hi h
  · cases hresp
    cases herr
  · have hsame : decodedResult (grown (s.raise .truncatedInput) extra) i = decodedResult (grown s extra) i :=
      decodedResult_congr rfl rfl rfl rfl
    obtain ⟨hl, ⟨v, n, hd, rfl⟩ | ⟨hd, rfl⟩⟩ := exec_decode_next_cases hi hu
    · obtain ⟨hanswer, hcursor⟩ :=
        sameAnswer_afterDecode (s := grown s extra) (s' := grown (s.raise .truncatedInput) extra) rfl v n
      exact ⟨_, exec_decode_of_ok hi hl (hsame.trans hd), hanswer, hcursor, rfl, fun _ => rfl⟩
    · exact ⟨_, exec_decode_of_truncated hi hl (hsame.trans hd), sameAnswer_raise rfl, rfl, rfl, fun _ => rfl⟩

end Sys2Proof.Proofs

/-! ## 10_state.md section 2: what a step does with each input, and O3, O4, O5, O7 -/

namespace Sys2Proof.Proofs

open Sys2Proof.Machine Sys2Proof.Claims

/-- The state in which a request's operation starts: the request taken, its operands on the ports. -/
def sampled (s : State) (r : Request) (rest : List Input) : State := { s with pending := rest }.sample r

section Steps
variable {s : State} {r : Request} {rest : List Input}

theorem step_idle (hp : s.pending = []) : step s = .next s := by
  rw [step, State.takeInput, hp]

theorem step_present {bytes : List Byte} {c : Nat} (hp : s.pending = .present bytes c :: rest) :
    step s = .next ({ s with pending := rest }.present bytes c) := by
  rw [step, State.takeInput, hp]

theorem step_request_ok {i : Instr} (hp : s.pending = .request r :: rest) (hd : decodeOp r.op = .ok i) :
    step s = exec i (sampled s r rest) := by
  simp only [step, State.takeInput, hp, State.sample_req, samplePorts_op, hd]
  rfl

theorem step_request_error {e : CodeRejected} (hp : s.pending = .request r :: rest) (hd : decodeOp r.op = .error e) :
    step s = .next ((sampled s r rest).raise .illegalOp) := by
  simp only [step, State.takeInput, hp, State.sample_req, samplePorts_op, hd]
  rfl

end Steps

/-- Settles O3: with nothing to take a step answers the same state. -/
theorem idleStepChangesNothing : Obligations.IdleStepChangesNothing := fun _ => step_idle

/-- Settles O4: the presented bytes are the sequence's, read by position. -/
theorem presentSetsSequenceAndCursor : Obligations.PresentSetsSequenceAndCursor := by
  intro s bytes c rest hp
  refine ⟨_, step_present hp, rfl, rfl, rfl, rfl, rfl, Memory.length_ofBytes bytes, fun a => ?_⟩
  rw [State.present_seq, Memory.read_eq _ (Memory.wf_ofBytes bytes), Memory.bytes_ofBytes]

/-- Settles O5: the ports of the sampled state are those that the claim writes out. -/
theorem stepRunsDecodedRequest : Obligations.StepRunsDecodedRequest := fun _ _ _ _ => step_request_ok

/-- An operation keeps its inputs, and what it does to the sequence is to append. -/
theorem exec_keeps_inputs_and_appends {i : Instr} {s t : State} (h : exec i s = .next t) :
    SameInputs s t ∧ ∃ e : List Byte, t.seq = s.seq.appendAll e := by
  rcases exec_next_cases h with ⟨-, -, -, rfl⟩ | ⟨-, -, rfl⟩ | ⟨-, -, rfl⟩ | ⟨-, -, v, n, -, rfl⟩ | ⟨-, -, -, rfl⟩
  case inr.inr.inl => exact ⟨⟨rfl, rfl, rfl⟩, _, rfl⟩
  all_goals exact ⟨⟨rfl, rfl, rfl⟩, [], rfl⟩

/-- Settles O7: input by input; a request's operation keeps what it does not append. -/
theorem stepTakesOneInput : Obligations.StepTakesOneInput := by
  intro s t h
  rcases step_next_cases h with ⟨hp, rfl⟩ | ⟨rest, hp, rfl⟩ | ⟨bytes, c, rest, hp, rfl⟩ | ⟨r, rest, i, hp, -, hexec⟩ |
      ⟨r, rest, e, hp, -, rfl⟩
  · exact ⟨rfl, by rw [hp, List.tail_nil], fun _ => ⟨[], rfl⟩⟩
  · exact ⟨rfl, by rw [hp]; rfl, fun _ => ⟨[], rfl⟩⟩
  · exact ⟨rfl, by rw [hp]; rfl, fun hnone => absurd (by rw [hp, List.head?_cons]) (hnone bytes c)⟩
  · obtain ⟨⟨hparams, hpending, -⟩, happends⟩ := exec_keeps_inputs_and_appends hexec
    exact ⟨hparams, by rw [hpending, hp]; rfl, fun _ => happends⟩
  · exact ⟨rfl, by rw [hp]; rfl, fun _ => ⟨[], rfl⟩⟩

end Sys2Proof.Proofs

/-! ## 60_exceptions.md section 1: who raises which error, and O6, O44 -/

namespace Sys2Proof.Proofs

open Sys2Proof.Machine Sys2Proof.Claims

/-- A code is reserved when it decodes to nothing, or to a primitive that is not exposed (30_encoding.md R66). -/
theorem reservedCode_iff {p : Params} {op : OpCode} : ReservedCode p op ↔
    (∃ e, decodeOp op = .error e) ∨ ∃ i, decodeOp op = .ok i ∧ i.isBitop = true ∧ p.bitopsExposed = false := by
  rcases decodeOp_rows op with ⟨rfl, hd⟩ | ⟨rfl, hd⟩ | ⟨rfl, hd⟩ | ⟨rfl, hd⟩ | ⟨rfl, hd⟩ | ⟨rfl, hd⟩ | ⟨rfl, hd⟩ |
      ⟨rfl, hd⟩ | ⟨hbit, hd⟩
  case inr.inr.inr.inr.inr.inr.inr.inr => exact iff_of_true (.inr (.inl hbit)) (.inl ⟨_, hd⟩)
  all_goals simp [ReservedCode, hd, Instr.isBitop]

section Requests
variable {s : State} {r : Request} {rest : List Input}

theorem step_reserved (hp : s.pending = .request r :: rest) (hr : ReservedCode s.params r.op) :
    step s = .next ((sampled s r rest).raise .illegalOp) := by
  rcases reservedCode_iff.1 hr with ⟨e, hd⟩ | ⟨i, hd, hi, hx⟩
  · exact step_request_error hp hd
  · exact (step_request_ok hp hd).trans (exec_bitop_hidden hi hx)

theorem reservedCode_of_illegalOp {t : State} (hp : s.pending = .request r :: rest) (h : step s = .next t)
    (herr : Answers t fun p => p.err = 2#2) : ReservedCode s.params r.op := by
  rw [reservedCode_iff]
  cases hd : decodeOp r.op with
  | error e => exact .inl ⟨e, rfl⟩
  | ok i =>
    obtain ⟨p, hresp, herr⟩ := herr
    rw [step_request_ok hp hd] at h
    rcases exec_error_cases h hresp (by simp [herr]) with ⟨hi, hx, -, -⟩ | ⟨-, hone, -⟩
    · exact .inr ⟨i, rfl, hi, hx⟩
    · simp [herr] at hone

end Requests

/-- Settles O6: a reserved code raises `IllegalOp`, and nothing else does. -/
theorem illegalOpExactlyForReservedCodes : Obligations.IllegalOpExactlyForReservedCodes := by
  intro s r rest hp
  refine ⟨⟨fun ⟨t, h, herr⟩ => reservedCode_of_illegalOp hp h herr, fun hr => ?_⟩, fun hr => ?_⟩
  · exact ⟨_, step_reserved hp hr, _, State.raise_resp _ _, rfl⟩
  · exact ⟨_, step_reserved hp hr, rfl, rfl, ⟨rfl, fun _ => rfl⟩, rfl, _, State.raise_resp _ _, rfl, rfl⟩

/-- Settles O44: the two sources of an error response, and O6's step for a reserved code. -/
theorem whichOperationRaisesWhat : Obligations.WhichOperationRaisesWhat := by
  refine ⟨fun i s t p h hresp => ?_, fun s r rest hp hr =>
    ⟨_, step_reserved hp hr, _, State.raise_resp _ _, rfl⟩⟩
  by_cases hok : p.err = 0#2
  · simp [hok]
  · rcases exec_error_cases h hresp hok with ⟨hi, hx, herr, -⟩ | ⟨hi, herr, -⟩
    · simp [herr, hi, hx]
    · simp [herr, hi]

end Sys2Proof.Proofs

/-! ## 10_state.md: widths and the invariant, and O1, O8, O48, O49 -/

namespace Sys2Proof.Proofs

open Sys2Proof.Machine Sys2Proof.Claims

section EncodedLengths
variable {w u : Nat}

theorem encBytes_length_pos (sgn : Bool) : 1 ≤ (encBytes w sgn u).length := by
  cases sgn with
  | false => exact encU_length_pos u
  | true => exact List.length_pos_of_ne_nil (encS_ne_nil w u)

/-- An encoding of a `W`-bit pattern is no longer than the longest one of its signedness (00_scope.md R11). -/
theorem encBytes_length_le (hw : 8 ≤ w) (hu : u < 2 ^ w) (sgn : Bool) :
    (encBytes w sgn u).length ≤ maxLen w sgn := by
  cases sgn with
  | false => exact encU_length_le hu (by omega)
  | true =>
    obtain ⟨v, hlo, hhi, rfl⟩ := exists_signed_of_lt (by omega) hu
    exact encS_length_le hw hlo hhi

theorem maxLen_le (w : Nat) (sgn : Bool) : maxLen w sgn ≤ max (maxLenU w) (maxLenS w) := by
  cases sgn with
  | false => exact le_max_left _ _
  | true => exact le_max_right _ _

/-- The bytes of an encode are those of its signedness. -/
theorem encodedBytes_kind {i : Instr} (s : State) (hi : i.isEncode = true) :
    ∃ sgn, encodedBytes s i = encBytes s.params.w sgn s.req.valIn := by
  cases i with
  | encu => exact ⟨false, rfl⟩
  | encs => exact ⟨true, rfl⟩
  | encGen sgn => exact ⟨sgn, encodedBytes_encGen s sgn⟩
  | _ => cases hi

theorem encodedBytes_length_le {i : Instr} {s : State} (hi : i.isEncode = true) (hw : 8 ≤ s.params.w)
    (hv : s.req.valIn < 2 ^ s.params.w) :
    (encodedBytes s i).length ≤ max (maxLenU s.params.w) (maxLenS s.params.w) := by
  obtain ⟨sgn, hbytes⟩ := encodedBytes_kind s hi
  rw [hbytes]
  exact (encBytes_length_le hw hv sgn).trans (maxLen_le _ sgn)

/-- `nbytes` is wide enough for every count (10_state.md R23). -/
theorem lt_two_pow_nbytesWidth {n : Nat} (hn : n ≤ max (maxLenU w) (maxLenS w)) : n < 2 ^ nbytesWidth w :=
  hn.trans_lt (lt_two_pow_bitLen _)

end EncodedLengths

/-- The results of an operation that fit their ports. -/
def ResultFits (p : Params) : Result → Prop
  | .encoded n => n < 2 ^ nbytesWidth p.w
  | .decoded v c n => v < 2 ^ p.w ∧ c < 2 ^ p.a ∧ n < 2 ^ nbytesWidth p.w
  | .bit _ | .unit _ | .error _ => True

section Invariant
variable {s : State}

/-- What a result does not define carries free values, which fit (entry 9). -/
theorem drivePorts_fits {p : Params} {k c : Nat} {r : Result} (hr : ResultFits p r) (hc : c < 2 ^ p.a) :
    (drivePorts p k c r).fits p := by
  obtain ⟨hval, hcur, hn⟩ := freeResponse_bounds p k
  cases r with
  | bit b => exact ⟨hval, hcur, hn, by simp⟩
  | unit u => exact ⟨hval, hcur, hn, by simp⟩
  | encoded n => exact ⟨hval, hcur, hr, by simp⟩
  | decoded v d n =>
    obtain ⟨hv, hd, hn'⟩ := hr
    exact ⟨hv, hd, hn', by simp⟩
  | error e => exact ⟨hval, hc, hn, by cases e <;> simp⟩

theorem inv_respond {r : Result} (hs : s.Inv) (hr : ResultFits s.params r) : (s.respond r).Inv := by
  obtain ⟨hp, hm, hlen, hcur, hpend, hreq, -⟩ := hs
  have ⟨_, hcurIn, _⟩ := hreq
  refine ⟨hp, hm, hlen, hcur, hpend, hreq, fun q hq => ?_⟩
  rw [State.respond_resp, Option.mem_toList, Option.some.injEq] at hq
  exact hq ▸ drivePorts_fits hr hcurIn

theorem inv_appendAll {e : List Byte} (hs : s.Inv) (hroom : s.roomFor e.length) :
    State.Inv { s with seq := s.seq.appendAll e } := by
  obtain ⟨hp, hm, hlen, hcur, hpend, hreq, hresp⟩ := hs
  refine ⟨hp, Memory.wf_appendAll _ e hm, ?_, hcur, hpend, hreq, hresp⟩
  show (s.seq.appendAll e).length < 2 ^ s.params.a
  rw [Memory.length_appendAll]
  omega

theorem inv_withCursor {c : Nat} (hs : s.Inv) (hc : c < 2 ^ s.params.a) : State.Inv { s with cursor := c } := by
  obtain ⟨hp, hm, hlen, -, hpend, hreq, hresp⟩ := hs
  exact ⟨hp, hm, hlen, hc, hpend, hreq, hresp⟩

theorem inv_blockReset (hs : s.Inv) : s.blockReset.Inv := by
  obtain ⟨hp, hm, hlen, hcur, hpend, hreq, -⟩ := hs
  exact ⟨hp, hm, hlen, hcur, hpend, hreq, by simp⟩

theorem inv_present {bytes : List Byte} {c : Nat} (hs : s.Inv)
    (hx : (Input.present bytes c).wf s.params = true) : (s.present bytes c).Inv := by
  obtain ⟨hp, -, -, -, hpend, hreq, hresp⟩ := hs
  obtain ⟨hlen, hcur⟩ := of_decide_eq_true hx
  exact ⟨hp, Memory.wf_ofBytes bytes, (Memory.length_ofBytes bytes).symm ▸ hlen, hcur, hpend, hreq, hresp⟩

/-- The caller's own cursor and the current length fit where the request gives none. -/
theorem inv_sample {r : Request} (hs : s.Inv) (hx : (Input.request r).wf s.params = true) : (s.sample r).Inv := by
  obtain ⟨hp, hm, hlen, hcur, hpend, -, hresp⟩ := hs
  obtain ⟨hval, hcurIn, hlenIn⟩ := of_decide_eq_true hx
  refine ⟨hp, hm, hlen, hcur, hpend, ⟨hval, ?_, ?_⟩, hresp⟩
  · show r.curIn.getD s.cursor < _
    cases hgiven : r.curIn with
    | none => exact hcur
    | some c => rwa [hgiven] at hcurIn
  · show r.len.getD s.seq.length < _
    cases hgiven : r.len with
    | none => exact hlen
    | some n => rwa [hgiven] at hlenIn

/-- Taking the first input leaves the caller's other obligations, and this one is met. -/
theorem inv_takeInput {x : Input} {rest : List Input} (hs : s.Inv) (hp : s.pending = x :: rest) :
    State.Inv { s with pending := rest } ∧ x.wf s.params = true := by
  obtain ⟨hparams, hm, hlen, hcur, hpend, hreq, hresp⟩ := hs
  rw [hp, List.forall_mem_cons] at hpend
  exact ⟨⟨hparams, hm, hlen, hcur, hpend.2, hreq, hresp⟩, hpend.1⟩

theorem inv_exec {i : Instr} {t : State} (hs : s.Inv) (h : exec i s = .next t) : t.Inv := by
  have ⟨⟨_, hw⟩, _, hlen, _, _, ⟨hval, _, _⟩, _⟩ := hs
  rcases exec_next_cases h with ⟨-, -, hres, rfl⟩ | ⟨-, -, rfl⟩ | ⟨hi, hroom, rfl⟩ | ⟨-, hl, v, n, hd, rfl⟩ |
      ⟨-, -, -, rfl⟩
  · refine inv_respond hs ?_
    rcases hres with ⟨b, hb⟩ | ⟨u, hu⟩
    · rw [hb]; trivial
    · rw [hu]; trivial
  · exact inv_respond hs trivial
  · exact inv_respond (inv_appendAll hs hroom) (lt_two_pow_nbytesWidth (encodedBytes_length_le hi hw hval))
  · obtain ⟨-, hmax, hfar, hv⟩ := decodedResult_bounds hw hd
    have hc : s.req.curIn + n < 2 ^ s.params.a := (hfar.trans hl).trans_lt hlen
    exact inv_respond (inv_withCursor hs hc) ⟨hv, hc, lt_two_pow_nbytesWidth hmax⟩
  · exact inv_respond hs trivial

end Invariant

/-- Settles O1: the values of the reset state are evaluated. -/
theorem resetStateMeetsInvariant : Obligations.ResetStateMeetsInvariant := by
  unfold Obligations.ResetStateMeetsInvariant
  decide

/-- Settles O8: each input keeps the invariant, and so does the operation that a request runs. -/
theorem everyStepKeepsInvariant : Obligations.EveryStepKeepsInvariant := by
  intro s t hs h
  rcases step_next_cases h with ⟨-, rfl⟩ | ⟨rest, hp, rfl⟩ | ⟨bytes, c, rest, hp, rfl⟩ | ⟨r, rest, i, hp, -, hexec⟩ |
      ⟨r, rest, e, hp, -, rfl⟩
  · exact hs
  · exact inv_blockReset (inv_takeInput hs hp).1
  · obtain ⟨hrest, hx⟩ := inv_takeInput hs hp
    exact inv_present hrest hx
  · obtain ⟨hrest, hx⟩ := inv_takeInput hs hp
    exact inv_exec (inv_sample hrest hx) hexec
  · obtain ⟨hrest, hx⟩ := inv_takeInput hs hp
    exact inv_respond (inv_sample hrest hx) trivial

/-- An operation that answers a next state has responded. -/
theorem exec_next_resp {i : Instr} {s t : State} (h : exec i s = .next t) : ∃ p, t.resp = some p := by
  rcases exec_next_cases h with ⟨-, -, -, rfl⟩ | ⟨-, -, rfl⟩ | ⟨-, -, rfl⟩ | ⟨-, -, v, n, -, rfl⟩ | ⟨-, -, -, rfl⟩
  all_goals exact ⟨_, rfl⟩

/-- Settles O48: a primitive always answers, an encode has room for the longest encoding, a decode has an honest `len`. -/
theorem everyOperationEnds : Obligations.EveryOperationEnds := by
  intro i s hs hl hroomy
  suffices hnext : ∃ t, exec i s = .next t by
    obtain ⟨t, ht⟩ := hnext
    obtain ⟨p, hp⟩ := exec_next_resp ht
    exact ⟨t, p, ht, hp⟩
  obtain ⟨hp, hm, -, -, -, ⟨hval, -, -⟩, -⟩ := hs
  rcases instr_kind_cases i with hi | hi | hi
  · cases hx : s.params.bitopsExposed with
    | true => exact ⟨_, exec_bitop_exposed hi hx⟩
    | false => exact ⟨_, exec_bitop_hidden hi hx⟩
  · have hroom : s.roomFor (encodedBytes s i).length :=
      (Nat.add_le_add_left (encodedBytes_length_le hi hp.2 hval) _).trans hroomy
    exact ⟨_, (exec_encode i s hi).trans (finishEncode_room hroom)⟩
  · exact exec_decode_completes hi hm hl

/-- An OK encode's `nbytes` is the number of its bytes, and that is by how much the sequence grew. -/
theorem exec_encode_nbytes {i : Instr} {s t : State} {p : Response} (hi : i.isEncode = true) (h : exec i s = .next t)
    (hp : t.resp = some p) :
    p.nbytes = (encodedBytes s i).length ∧ t.seq.length = s.seq.length + p.nbytes := by
  obtain ⟨-, rfl⟩ := exec_encode_next_cases hi h
  cases hp
  exact ⟨rfl, Memory.length_appendAll _ _⟩

/-- Settles O49: the bounds on the bytes of an encoding and on what a decode finds. -/
theorem byteCountsAreBounded : Obligations.ByteCountsAreBounded := by
  intro i s t p hp hval h hresp herr
  refine ⟨?_, ?_, fun hi => (exec_encode_nbytes hi h hresp).2, fun hi => ?_⟩
  · rintro (rfl | rfl)
    · rw [(exec_encode_nbytes rfl h hresp).1]
      exact ⟨encBytes_length_pos (w := s.params.w) false, encBytes_length_le hp.2 hval false⟩
    · obtain ⟨-, v, n, hd, -, -, -, rfl⟩ := exec_decode_ok_cases rfl h hresp herr
      obtain ⟨hpos, hmax, -, -⟩ := decU_bounds hp.2 hd
      exact ⟨hpos, hmax⟩
  · rintro (rfl | rfl)
    · rw [(exec_encode_nbytes rfl h hresp).1]
      exact ⟨encBytes_length_pos true, encBytes_length_le hp.2 hval true⟩
    · obtain ⟨-, v, n, hd, -, -, -, rfl⟩ := exec_decode_ok_cases rfl h hresp herr
      obtain ⟨hpos, hmax, -, -⟩ := decS_bounds hp.2 hd
      exact ⟨hpos, hmax⟩
  · obtain ⟨-, v, n, -, rfl, -, -, hn⟩ := exec_decode_ok_cases hi h hresp herr
    rw [hn]
    rfl

end Sys2Proof.Proofs

/-! ## 41_unsigned_varint.md section 4: runs of requests, and O41 -/

namespace Sys2Proof.Proofs

open Sys2Proof.Machine Sys2Proof.Claims

section Running
variable {M : Host.Core} {s t : M.State}

theorem run_succ (k : Nat) (h : M.step s = .next t) : M.run (k + 1) s = M.run k t := by
  rw [Host.Core.run, h]

theorem run_add {j : Nat} (k : Nat) (h : M.run j s = .next t) : M.run (j + k) s = M.run k t := by
  induction j generalizing s with
  | zero =>
    cases h
    rw [Nat.zero_add]
  | succ j ih =>
    rw [Host.Core.run] at h
    split at h
    · next s' hstep => rw [Nat.succ_add, run_succ (j + k) hstep, ih h]
    · cases h
    · cases h

end Running

theorem standsAt_append {m : Memory} {c : Nat} {as bs : List Byte} (h : StandsAt m c (as ++ bs)) :
    StandsAt m c as ∧ StandsAt m (c + as.length) bs := by
  refine ⟨fun j hj => ?_, fun j hj => ?_⟩
  · rw [h j (by simp; omega), List.getElem?_append_left hj]
  · rw [Nat.add_assoc, h (as.length + j) (by simp; omega), List.getElem?_append_right (by omega),
      Nat.add_sub_cancel_left]

theorem encodeAll_cons (w : Nat) (x : Bool × Nat) (xs : List (Bool × Nat)) :
    encodeAll w (x :: xs) = encBytes w x.1 x.2 ++ encodeAll w xs := rfl

section Requests
variable {s : State} {x : Bool × Nat} {xs : List (Bool × Nat)} {rest : List Input}

/-- The step of `ENC.s u` with room for its bytes: they are appended, and the cursor stays. -/
theorem step_encodeRequest (hp : s.pending = encodeRequest x :: rest)
    (hroom : s.roomFor (encBytes s.params.w x.1 x.2).length) :
    ∃ t, step s = .next t ∧ t.params = s.params ∧ t.pending = rest ∧ t.cursor = s.cursor ∧
      t.seq = s.seq.appendAll (encBytes s.params.w x.1 x.2) := by
  obtain ⟨hcode, -⟩ := encGenFollowsDeclaredSignedness
  have hstep := step_request_ok hp (hcode x.1)
  rw [exec_expand, exec_encode _ _ rfl, encodedBytes_encGen] at hstep
  exact ⟨_, hstep.trans (finishEncode_room hroom), rfl, rfl, rfl, rfl⟩

/-- The step of `DEC.s` where an encoding of the same signedness stands at the caller's cursor: the value is found and the
cursor moves past its bytes. -/
theorem step_decodeRequest (hw : 8 ≤ s.params.w) (hp : s.pending = decodeRequest x :: rest)
    (hu : x.2 < 2 ^ s.params.w) (hs : StandsAt s.seq s.cursor (encBytes s.params.w x.1 x.2))
    (hl : s.cursor + (encBytes s.params.w x.1 x.2).length ≤ s.seq.length) :
    ∃ t, step s = .next t ∧ t.params = s.params ∧ t.pending = rest ∧ t.seq = s.seq ∧
      t.cursor = s.cursor + (encBytes s.params.w x.1 x.2).length ∧
      Decoded t x.2 t.cursor (encBytes s.params.w x.1 x.2).length := by
  obtain ⟨hcode, -⟩ := decGenFollowsDeclaredSignedness
  have hstep := step_request_ok hp (hcode x.1)
  rw [exec_expand] at hstep
  have hok := hstep.trans (exec_decode_of_ok rfl (le_refl s.seq.length) (decodedResult_encBytes hw hu hs hl))
  exact ⟨_, hok, rfl, rfl, rfl, rfl, _, State.respond_resp _ _, rfl, rfl, rfl, rfl⟩

/-- Encode requests one after the other append their encodings one after the other. -/
theorem run_encodeRequests (hp : s.pending = xs.map encodeRequest ++ rest)
    (hroom : s.roomFor (encodeAll s.params.w xs).length) :
    ∃ t, Sys2Proof.core.run xs.length s = .next t ∧ t.params = s.params ∧ t.pending = rest ∧ t.cursor = s.cursor ∧
      t.seq = s.seq.appendAll (encodeAll s.params.w xs) := by
  induction xs generalizing s with
  | nil => exact ⟨s, rfl, rfl, hp, rfl, rfl⟩
  | cons x xs ih =>
    rw [encodeAll_cons, List.length_append] at hroom
    obtain ⟨t, hstep, hparams, hpending, hcursor, hseq⟩ :=
      step_encodeRequest (x := x) (rest := xs.map encodeRequest ++ rest) hp (by omega)
    obtain ⟨u, hrun, hparams', hpending', hcursor', hseq'⟩ := ih hpending (by
      rw [State.roomFor, hparams, hseq, Memory.length_appendAll]
      omega)
    refine ⟨u, (run_succ _ hstep).trans hrun, hparams'.trans hparams, hpending', hcursor'.trans hcursor, ?_⟩
    rw [hseq', hseq, hparams, encodeAll_cons, Memory.appendAll_append]

/-- Where encodings stand one after the other from the caller's cursor on, decode requests find their values in order. -/
theorem run_decodeRequests (hw : 8 ≤ s.params.w) (hp : s.pending = xs.map decodeRequest ++ rest)
    (hu : ∀ y ∈ xs, y.2 < 2 ^ s.params.w) (hs : StandsAt s.seq s.cursor (encodeAll s.params.w xs))
    (hl : s.cursor + (encodeAll s.params.w xs).length ≤ s.seq.length) {k : Nat} (hx : xs[k]? = some x) :
    ∃ t, Sys2Proof.core.run (k + 1) s = .next t ∧ t.seq = s.seq ∧
      t.cursor = s.cursor + (encodeAll s.params.w (xs.take (k + 1))).length ∧
      Decoded t x.2 t.cursor (encBytes s.params.w x.1 x.2).length := by
  induction xs generalizing s k with
  | nil => cases hx
  | cons y ys ih =>
    rw [encodeAll_cons] at hs hl
    rw [List.length_append] at hl
    obtain ⟨hfirst, hothers⟩ := standsAt_append hs
    obtain ⟨huy, huys⟩ := List.forall_mem_cons.1 hu
    obtain ⟨t, hstep, hparams, hpending, hseq, hcursor, hdecoded⟩ :=
      step_decodeRequest (x := y) (rest := ys.map decodeRequest ++ rest) hw hp huy hfirst (by omega)
    rw [List.take_succ_cons, encodeAll_cons, List.length_append]
    cases k with
    | zero =>
      cases hx
      exact ⟨t, run_succ 0 hstep, hseq, hcursor, hdecoded⟩
    | succ k =>
      rw [← hparams] at hw huys
      obtain ⟨u, hrun, hseq', hcursor', hdecoded'⟩ := ih hw hpending huys
        (by rw [hseq, hcursor, hparams]; exact hothers) (by rw [hseq, hcursor, hparams]; omega) hx
      rw [hparams] at hcursor' hdecoded'
      exact ⟨u, (run_succ _ hstep).trans hrun, hseq'.trans hseq, by rw [hcursor', hcursor]; omega, hdecoded'⟩

end Requests

/-- Settles O41: the encodes leave the encodings where the cursor still is, and the decodes find them in order. -/
theorem backToBackValuesDecodeInOrder : Obligations.BackToBackValuesDecodeInOrder := by
  intro s xs rest hparams hm hu hroom hcur hp k x hx
  obtain ⟨-, hw⟩ := hparams
  rw [List.append_assoc] at hp
  obtain ⟨t, hrun, hparams, hpending, hcursor, hseq⟩ := run_encodeRequests hp hroom
  have hs : StandsAt t.seq t.cursor (encodeAll s.params.w xs) := by
    rw [hseq, hcursor, hcur]
    exact fun j _ => Memory.read_appendAll_new s.seq _ hm j
  have hl : t.cursor + (encodeAll s.params.w xs).length ≤ t.seq.length := by
    rw [hseq, hcursor, hcur, Memory.length_appendAll]
  rw [← hparams] at hw hu hs hl
  obtain ⟨u, hrun', hseq', hcursor', hdecoded⟩ := run_decodeRequests hw hpending hu hs hl hx
  rw [hparams] at hcursor' hdecoded
  refine ⟨u, (run_add (k + 1) hrun).trans hrun', by rw [hcursor', hcursor, hcur], ?_, hdecoded⟩
  rw [hseq', hseq, Memory.bytes_appendAll]

end Sys2Proof.Proofs
